-- ==== Sys2Proof/Word.lean ====
section
/-! DEFINITION. The word types of the machine and nothing else: 8-bit register and memory values, 16-bit `I`, `PC`,
stack entries and instruction words, the operand widths of spec/30_encoding.md R46, and register numbers. All values
are unsigned (spec/00_scope.md R7). -/

namespace Sys2Proof

/-- An 8-bit register value, memory cell or immediate byte (spec/10_state.md R12, spec/20_memory.md R30). -/
abbrev Byte := BitVec 8

/-- A 16-bit value: `I`, `PC`, a stack entry, an instruction word (spec/10_state.md R16, R18, R19). -/
abbrev Word := BitVec 16

/-- A 12-bit address immediate `NNN` (spec/30_encoding.md R46). -/
abbrev Address := BitVec 12

/-- A register index, 0 to 15: no other index exists (spec/10_state.md R12). -/
abbrev Reg := Fin 16

/-- A sprite height `N`, a count 0 to 15 (spec/30_encoding.md R47). -/
abbrev Height := Fin 16

/-- A key index, 0 to 15 (spec/10_state.md R22). -/
abbrev Key := Fin 16

end Sys2Proof
end

