-- ==== Sys2Proof/Syntax.lean ====
section
/-! DEFINITION. The instruction set as syntax: one constructor per row of spec/opcode_table.json, in the priority order
of spec/30_encoding.md R49, with the mnemonics and the operand forms of R54, and the shape of a row of the decode
table (R48, R49). -/

namespace Sys2Proof

/-- The 34 instructions of spec/30_encoding.md R49. Every operand has exactly the range its field has, so no operand
value is illegal (R47). `SHR` and `SHL` carry the `Y` of their word, which they do not use (R52, log 9). -/
inductive Instr where
  | cls
  | ret
  | jpNnn (nnn : Address)
  | callNnn (nnn : Address)
  | seVxKk (x : Reg) (kk : Byte)
  | sneVxKk (x : Reg) (kk : Byte)
  | seVxVy (x y : Reg)
  | ldVxKk (x : Reg) (kk : Byte)
  | addVxKk (x : Reg) (kk : Byte)
  | ldVxVy (x y : Reg)
  | orVxVy (x y : Reg)
  | andVxVy (x y : Reg)
  | xorVxVy (x y : Reg)
  | addVxVy (x y : Reg)
  | subVxVy (x y : Reg)
  | shrVx (x y : Reg)
  | subnVxVy (x y : Reg)
  | shlVx (x y : Reg)
  | sneVxVy (x y : Reg)
  | ldINnn (nnn : Address)
  | jpV0Nnn (nnn : Address)
  | rndVxKk (x : Reg) (kk : Byte)
  | drwVxVyN (x y : Reg) (n : Height)
  | skpVx (x : Reg)
  | sknpVx (x : Reg)
  | ldVxDt (x : Reg)
  | ldVxK (x : Reg)
  | ldDtVx (x : Reg)
  | ldStVx (x : Reg)
  | addIVx (x : Reg)
  | ldFVx (x : Reg)
  | ldBVx (x : Reg)
  | ldMemIVx (x : Reg)
  | ldVxMemI (x : Reg)
  deriving DecidableEq, Repr

/-- One operand as an assembler writes it, before it is placed in a field (spec/30_encoding.md R54): a register
number, an immediate byte, an address, a sprite height. -/
inductive Operand where
  | register (number : Nat)
  | byte (value : Nat)
  | address (value : Nat)
  | height (value : Nat)
  deriving DecidableEq, Repr

/-- The operands an instruction carries in its word, in the order of their fields (spec/30_encoding.md R46, R54), the
unused `Y` of the two shifts included (R52); an assembler writes that one as 0. The fixed operand words `I`, `DT`, `ST`, `K`, `F`, `B`, `[I]` select the instruction and occupy no field. -/
def Instr.operands : Instr → List Operand
  | .cls | .ret => []
  | .jpNnn nnn | .callNnn nnn | .ldINnn nnn | .jpV0Nnn nnn => [.address nnn.toNat]
  | .seVxKk x kk | .sneVxKk x kk | .ldVxKk x kk | .addVxKk x kk | .rndVxKk x kk =>
    [.register x.val, .byte kk.toNat]
  | .seVxVy x y | .ldVxVy x y | .orVxVy x y | .andVxVy x y | .xorVxVy x y | .addVxVy x y | .subVxVy x y
  | .subnVxVy x y | .sneVxVy x y | .shrVx x y | .shlVx x y => [.register x.val, .register y.val]
  | .drwVxVyN x y n => [.register x.val, .register y.val, .height n.val]
  | .skpVx x | .sknpVx x | .ldVxDt x | .ldVxK x | .ldDtVx x | .ldStVx x | .addIVx x
  | .ldFVx x | .ldBVx x | .ldMemIVx x | .ldVxMemI x => [.register x.val]

/-- The spelling of spec/30_encoding.md R49, with the operand names of R54. -/
def Instr.mnemonic : Instr → String
  | .cls => "CLS"
  | .ret => "RET"
  | .jpNnn _ => "JP nnn"
  | .callNnn _ => "CALL nnn"
  | .seVxKk _ _ => "SE Vx, kk"
  | .sneVxKk _ _ => "SNE Vx, kk"
  | .seVxVy _ _ => "SE Vx, Vy"
  | .ldVxKk _ _ => "LD Vx, kk"
  | .addVxKk _ _ => "ADD Vx, kk"
  | .ldVxVy _ _ => "LD Vx, Vy"
  | .orVxVy _ _ => "OR Vx, Vy"
  | .andVxVy _ _ => "AND Vx, Vy"
  | .xorVxVy _ _ => "XOR Vx, Vy"
  | .addVxVy _ _ => "ADD Vx, Vy"
  | .subVxVy _ _ => "SUB Vx, Vy"
  | .shrVx _ _ => "SHR Vx"
  | .subnVxVy _ _ => "SUBN Vx, Vy"
  | .shlVx _ _ => "SHL Vx"
  | .sneVxVy _ _ => "SNE Vx, Vy"
  | .ldINnn _ => "LD I, nnn"
  | .jpV0Nnn _ => "JP V0, nnn"
  | .rndVxKk _ _ => "RND Vx, kk"
  | .drwVxVyN _ _ _ => "DRW Vx, Vy, n"
  | .skpVx _ => "SKP Vx"
  | .sknpVx _ => "SKNP Vx"
  | .ldVxDt _ => "LD Vx, DT"
  | .ldVxK _ => "LD Vx, K"
  | .ldDtVx _ => "LD DT, Vx"
  | .ldStVx _ => "LD ST, Vx"
  | .addIVx _ => "ADD I, Vx"
  | .ldFVx _ => "LD F, Vx"
  | .ldBVx _ => "LD B, Vx"
  | .ldMemIVx _ => "LD [I], Vx"
  | .ldVxMemI _ => "LD Vx, [I]"

/-- One row of the decoder's ordered list (spec/30_encoding.md R49): a word matches when the bits the mask keeps are
the pattern; `build` cuts the operand fields out of a word that matches. -/
structure DecodeRow where
  mask : Word
  pattern : Word
  build : Word → Instr

end Sys2Proof
end

