-- ==== Sys2Proof/WellFormed.lean ====
section
/-! DEFINITION. Well-formedness. An operand is well formed when it fits its field (spec/30_encoding.md R46, R47, R54);
an instruction is, when all its operands are. Because `Instr` types its operands by their fields, every instruction of
the model passes (`Sys2Proof.Laws.OperandsFit`): that is R47's "no field value is illegal". A row of the decode table
is well formed when its mask is one of the document's four families (R48) and its pattern has no bit outside the mask;
two rows are disjoint when no word can match both (R49). -/

namespace Sys2Proof

/-- The operand fits the field of its kind: 4, 8, 12 and 4 bits (spec/30_encoding.md R46, R54). -/
def Operand.wellFormed : Operand → Bool
  | .register number => number < 16
  | .byte value => value < 256
  | .address value => value < 4096
  | .height value => value < 16

/-- Every operand fits its field. -/
def Instr.wellFormed (i : Instr) : Bool :=
  i.operands.all Operand.wellFormed

/-- The four mask families of spec/30_encoding.md R48. -/
def maskFamilies : List Word := [0xF000, 0xF00F, 0xF0FF, 0xFFFF]

/-- The mask is of a family of R48 and the pattern lies within the mask. -/
def DecodeRow.wellFormed (r : DecodeRow) : Bool :=
  maskFamilies.contains r.mask && r.pattern &&& r.mask == r.pattern

/-- No word matches both rows: their patterns differ in a bit that both masks keep (spec/30_encoding.md R49). -/
def DecodeRow.disjoint (r q : DecodeRow) : Bool :=
  r.pattern &&& q.mask != q.pattern &&& r.mask

end Sys2Proof
end

