-- ==== Sys2Proof/Decode.lean ====
section
/-! DEFINITION. The decoder of spec/30_encoding.md: big-endian words from bytes (R32, R45), fields (R46), the ordered
table of (mask, pattern) rows with first match (R49), rejection by name of every other word (R51); then the encoder,
written from the same rows, and the host's `decodeTableWord`. The patterns and the field places are the spec's general
knowledge (log 3). -/

namespace Sys2Proof

/-- The 16-bit word of two consecutive bytes; the byte at the lower address holds bits 15 to 8
(spec/20_memory.md R32, spec/30_encoding.md R45). -/
def wordOfBytes (high low : Byte) : Word := high ++ low

/-- The byte stored at the lower address: bits 15 to 8 (spec/30_encoding.md R54). -/
def highByte (w : Word) : Byte := w.extractLsb' 8 8

/-- The byte stored at the higher address: bits 7 to 0 (spec/30_encoding.md R54). -/
def lowByte (w : Word) : Byte := w.extractLsb' 0 8

/-- `X`, bits 11 to 8 (spec/30_encoding.md R46). -/
def fieldX (w : Word) : Reg := (w.extractLsb' 8 4).toFin

/-- `Y`, bits 7 to 4 (spec/30_encoding.md R46). -/
def fieldY (w : Word) : Reg := (w.extractLsb' 4 4).toFin

/-- `N`, bits 3 to 0 (spec/30_encoding.md R46). -/
def fieldN (w : Word) : Height := (w.extractLsb' 0 4).toFin

/-- `KK`, bits 7 to 0 (spec/30_encoding.md R46). -/
def fieldKK (w : Word) : Byte := w.extractLsb' 0 8

/-- `NNN`, bits 11 to 0 (spec/30_encoding.md R46). -/
def fieldNNN (w : Word) : Address := w.extractLsb' 0 12

/-- A row of format E: both bytes fixed, no field (spec/30_encoding.md R48). -/
def rowE (pattern : Word) (i : Instr) : DecodeRow :=
  { mask := 0xFFFF, pattern := pattern, build := fun _ => i }

/-- A row of format A: the field `NNN` (spec/30_encoding.md R48). -/
def rowA (pattern : Word) (f : Address → Instr) : DecodeRow :=
  { mask := 0xF000, pattern := pattern, build := fun w => f (fieldNNN w) }

/-- A row of format XK: the fields `X` and `KK` (spec/30_encoding.md R48). -/
def rowXK (pattern : Word) (f : Reg → Byte → Instr) : DecodeRow :=
  { mask := 0xF000, pattern := pattern, build := fun w => f (fieldX w) (fieldKK w) }

/-- A row of format XYN: the fields `X`, `Y` and `N` (spec/30_encoding.md R48). -/
def rowXYN (pattern : Word) (f : Reg → Reg → Height → Instr) : DecodeRow :=
  { mask := 0xF000, pattern := pattern, build := fun w => f (fieldX w) (fieldY w) (fieldN w) }

/-- A row of format XY: the fields `X` and `Y` (spec/30_encoding.md R48). -/
def rowXY (pattern : Word) (f : Reg → Reg → Instr) : DecodeRow :=
  { mask := 0xF00F, pattern := pattern, build := fun w => f (fieldX w) (fieldY w) }

/-- A row of format X: the field `X` (spec/30_encoding.md R48). -/
def rowX (pattern : Word) (f : Reg → Instr) : DecodeRow :=
  { mask := 0xF0FF, pattern := pattern, build := fun w => f (fieldX w) }

/-- Rows 1 to 9 of spec/30_encoding.md R49. -/
def decodeTableLow : List DecodeRow :=
  [rowE 0x00E0 .cls, rowE 0x00EE .ret, rowA 0x1000 .jpNnn, rowA 0x2000 .callNnn, rowXK 0x3000 .seVxKk,
   rowXK 0x4000 .sneVxKk, rowXY 0x5000 .seVxVy, rowXK 0x6000 .ldVxKk, rowXK 0x7000 .addVxKk]

/-- Rows 10 to 18 of spec/30_encoding.md R49. -/
def decodeTableAlu : List DecodeRow :=
  [rowXY 0x8000 .ldVxVy, rowXY 0x8001 .orVxVy, rowXY 0x8002 .andVxVy, rowXY 0x8003 .xorVxVy, rowXY 0x8004 .addVxVy,
   rowXY 0x8005 .subVxVy, rowXY 0x8006 .shrVx, rowXY 0x8007 .subnVxVy, rowXY 0x800E .shlVx]

/-- Rows 19 to 34 of spec/30_encoding.md R49. -/
def decodeTableHigh : List DecodeRow :=
  [rowXY 0x9000 .sneVxVy, rowA 0xA000 .ldINnn, rowA 0xB000 .jpV0Nnn, rowXK 0xC000 .rndVxKk, rowXYN 0xD000 .drwVxVyN,
   rowX 0xE09E .skpVx, rowX 0xE0A1 .sknpVx, rowX 0xF007 .ldVxDt, rowX 0xF00A .ldVxK, rowX 0xF015 .ldDtVx,
   rowX 0xF018 .ldStVx, rowX 0xF01E .addIVx, rowX 0xF029 .ldFVx, rowX 0xF033 .ldBVx, rowX 0xF055 .ldMemIVx,
   rowX 0xF065 .ldVxMemI]

/-- The whole list, in priority order (spec/30_encoding.md R49). -/
def decodeTable : List DecodeRow := decodeTableLow ++ decodeTableAlu ++ decodeTableHigh

/-- The word matches the row: `(w & mask) == pattern` (spec/30_encoding.md R49). -/
def rowMatches (w : Word) (r : DecodeRow) : Bool := w &&& r.mask == r.pattern

/-- Why the decoder rejects: the word matches no row, and the raw word is carried (spec/30_encoding.md R51). -/
inductive DecodeError where
  | unknownInstruction (word : Word)
  deriving DecidableEq, Repr

/-- `decode(w)`: the first row that matches, with its fields; otherwise the rejection of R51. A pure function of the
word (spec/30_encoding.md R49, R51, R53). -/
def decode (w : Word) : Except DecodeError Instr :=
  match decodeTable.find? (rowMatches w) with
  | some r => .ok (r.build w)
  | none => .error (.unknownInstruction w)

/-- A four-bit number as its bits, to be placed in a field. -/
def nibble (n : Fin 16) : BitVec 4 := BitVec.ofFin n

/-- The word of format A (spec/30_encoding.md R48). -/
def wordA (op : BitVec 4) (nnn : Address) : Word := op ++ nnn

/-- The word of format XK (spec/30_encoding.md R48). -/
def wordXK (op : BitVec 4) (x : Reg) (kk : Byte) : Word := op ++ nibble x ++ kk

/-- The word of formats XY and XYN: `low` is the function code or `N` (spec/30_encoding.md R48). -/
def wordXYN (op : BitVec 4) (x y : Reg) (low : BitVec 4) : Word := op ++ nibble x ++ nibble y ++ low

/-- The encoder: the word of an instruction, from the formats and patterns of spec/30_encoding.md R48, R49. -/
def encode : Instr → Word
  | .cls => 0x00E0
  | .ret => 0x00EE
  | .jpNnn nnn => wordA 0x1 nnn
  | .callNnn nnn => wordA 0x2 nnn
  | .seVxKk x kk => wordXK 0x3 x kk
  | .sneVxKk x kk => wordXK 0x4 x kk
  | .seVxVy x y => wordXYN 0x5 x y 0x0
  | .ldVxKk x kk => wordXK 0x6 x kk
  | .addVxKk x kk => wordXK 0x7 x kk
  | .ldVxVy x y => wordXYN 0x8 x y 0x0
  | .orVxVy x y => wordXYN 0x8 x y 0x1
  | .andVxVy x y => wordXYN 0x8 x y 0x2
  | .xorVxVy x y => wordXYN 0x8 x y 0x3
  | .addVxVy x y => wordXYN 0x8 x y 0x4
  | .subVxVy x y => wordXYN 0x8 x y 0x5
  | .shrVx x y => wordXYN 0x8 x y 0x6
  | .subnVxVy x y => wordXYN 0x8 x y 0x7
  | .shlVx x y => wordXYN 0x8 x y 0xE
  | .sneVxVy x y => wordXYN 0x9 x y 0x0
  | .ldINnn nnn => wordA 0xA nnn
  | .jpV0Nnn nnn => wordA 0xB nnn
  | .rndVxKk x kk => wordXK 0xC x kk
  | .drwVxVyN x y n => wordXYN 0xD x y (nibble n)
  | .skpVx x => wordXK 0xE x 0x9E
  | .sknpVx x => wordXK 0xE x 0xA1
  | .ldVxDt x => wordXK 0xF x 0x07
  | .ldVxK x => wordXK 0xF x 0x0A
  | .ldDtVx x => wordXK 0xF x 0x15
  | .ldStVx x => wordXK 0xF x 0x18
  | .addIVx x => wordXK 0xF x 0x1E
  | .ldFVx x => wordXK 0xF x 0x29
  | .ldBVx x => wordXK 0xF x 0x33
  | .ldMemIVx x => wordXK 0xF x 0x55
  | .ldVxMemI x => wordXK 0xF x 0x65

/-- The instruction word whose low `nbits` bits are those of `w` and whose other bits are zero. -/
def tableWord (nbits w : Nat) : Word := BitVec.ofNat 16 (w % 2 ^ nbits)

/-- What the decoder reads from the bits of an opcode-table row: the word is laid out as memory holds it, high byte
first, and read back from its two bytes (spec/20_memory.md R32). -/
def decodeTableWord (nbits w : Nat) : Option Instr :=
  match decode (wordOfBytes (highByte (tableWord nbits w)) (lowByte (tableWord nbits w))) with
  | .ok i => some i
  | .error _ => none

end Sys2Proof
end

