-- ==== Sys2Proof/Config.lean ====
section
/-! DEFINITION. What an implementation fixes, and the free values. `font` is the spec's parameter `FONT` at its default
(spec/20_memory.md R43, log 2); `randomByte` is the spec's free input `rnd` (spec/41_alu.md R82, log 1). The other
entries are the parameters of spec/00_scope.md R6. -/

namespace Sys2Proof

/-- The first address past the end of memory: 4096 cells, `0x000` to `0xFFF` (spec/00_scope.md R6). -/
def Config.memSize : Nat := 0x1000

/-- Where the program image is loaded and where execution starts (spec/00_scope.md R6, spec/20_memory.md R31). -/
def Config.loadBase : Nat := 0x200

/-- The longest image the loader accepts, `4096 - 0x200` bytes (spec/20_memory.md R41). -/
def Config.maxImage : Nat := 3584

/-- Glyphs 0 to 3 of the default font (spec/20_memory.md R43). -/
def Config.fontPart0 : List Byte :=
  [0xF0, 0x90, 0x90, 0x90, 0xF0, 0x20, 0x60, 0x20, 0x20, 0x70,
   0xF0, 0x10, 0xF0, 0x80, 0xF0, 0xF0, 0x10, 0xF0, 0x10, 0xF0]

/-- Glyphs 4 to 7. -/
def Config.fontPart1 : List Byte :=
  [0x90, 0x90, 0xF0, 0x10, 0x10, 0xF0, 0x80, 0xF0, 0x10, 0xF0,
   0xF0, 0x80, 0xF0, 0x90, 0xF0, 0xF0, 0x10, 0x20, 0x40, 0x40]

/-- Glyphs 8 to B. -/
def Config.fontPart2 : List Byte :=
  [0xF0, 0x90, 0xF0, 0x90, 0xF0, 0xF0, 0x90, 0xF0, 0x10, 0xF0,
   0xF0, 0x90, 0xF0, 0x90, 0x90, 0xE0, 0x90, 0xE0, 0x90, 0xE0]

/-- Glyphs C to F. -/
def Config.fontPart3 : List Byte :=
  [0xF0, 0x80, 0x80, 0x80, 0xF0, 0xE0, 0x90, 0x90, 0x90, 0xE0,
   0xF0, 0x80, 0xF0, 0x80, 0xF0, 0xF0, 0x80, 0xF0, 0x80, 0x80]

/-- The 80 bytes of the built-in font, glyph `g` at `5 * g` (spec/20_memory.md R42, R43). PRESUMED by the spec: its
source prints no byte, the table is the spec's default of the parameter `FONT`. UNSAFE (log 2). -/
def Config.font : List Byte :=
  Config.fontPart0 ++ Config.fontPart1 ++ Config.fontPart2 ++ Config.fontPart3

/-- The random bytes the host supplies: the `k`-th byte that a `RND` consumes. A free value without a body: nothing
can be proved of it, so a statement about it holds for every sequence of bytes (spec/41_alu.md R82, D19). Safe
(log 1). -/
opaque Config.randomByte : Nat → Byte

end Sys2Proof
end

