-- ==== Sys2Proof/Machine/State.lean ====
section
/-! DEFINITION. The state of the machine as plain data (spec/10_state.md R10: "exactly these members and no others",
beside the model's own counter of random bytes), the fault kinds of spec/60_exceptions.md R110, the refusals, and the
state after reset (spec/70_reset_and_hazards.md R130). -/

namespace Sys2Proof.Machine

/-- Memory: the cells that differ from what `initialize` leaves there, by rising address (log 26). An address that is
not listed reads as its reset contents. -/
abbrev Memory := List Host.Cell

/-- The frame buffer, `fb[y][x]`: 32 rows of 64 pixels, row 0 at the top, column 0 at the left
(spec/10_state.md R23). -/
abbrev Frame := Vector (Vector Bool 64) 32

/-- `ProcessorState` (spec/10_state.md R10) and the model's own `draws`. -/
structure State where
  /-- `V[0..15]`, `VF` being `V[15]` (spec/10_state.md R12, R14). -/
  v : Vector Byte 16
  /-- The index register `I`, all 16 bits (spec/10_state.md R18). -/
  i : Word
  /-- The program counter (spec/10_state.md R16). -/
  pc : Word
  /-- `SP`, the next free slot of the stack: 0 empty, 16 full (spec/10_state.md R19). -/
  sp : Fin 17
  /-- `stack[0..15]`, return addresses (spec/10_state.md R19). -/
  stack : Vector Word 16
  /-- The delay timer `DT` (spec/10_state.md R20). -/
  dt : Byte
  /-- The sound timer `ST` (spec/10_state.md R20). -/
  st : Byte
  /-- `key[0..15]`, true means down; written by the host only (spec/10_state.md R22). -/
  key : Vector Bool 16
  /-- The frame buffer (spec/10_state.md R23). -/
  fb : Frame
  /-- Set by `CLS` and `DRW`, cleared by the host (spec/10_state.md R21). -/
  needsRedraw : Bool
  /-- The 4096 cells (spec/10_state.md R24). -/
  mem : Memory
  /-- The model's own: how many random bytes have been consumed (log 1). -/
  draws : Nat
  deriving DecidableEq, Repr

/-- The five kinds of fault a step can raise, in the order of their codes, each with the `info` it records
(spec/60_exceptions.md R110). A faulting step changes no state (R112). All are safe: the model stops where the spec
says the step reports a fault to the caller. -/
inductive Fault where
  /-- Code 1. Raised by the decode phase of any step whose word matches no row; carries the raw word
  (spec/60_exceptions.md R111). Safe (log 4). -/
  | unknownInstruction (word : Word)
  /-- Code 2. Raised by the fetch of any step and by `DRW`, `LD B`, `LD [I]`, `LD Vx, [I]`; carries the lowest
  offending address (spec/20_memory.md R35). Safe (log 5). -/
  | addressOverflow (address : Nat)
  /-- Code 3. Raised by `RET` with `SP = 0`; carries the `PC` of the `RET` (spec/40_flow.md R61). Safe (log 6). -/
  | stackUnderflow (pc : Word)
  /-- Code 4. Raised by `CALL` with `SP = 16`; carries the `PC` of the `CALL` (spec/40_flow.md R62). Safe (log 6). -/
  | stackOverflow (pc : Word)
  /-- Code 5. Raised by `SKP` and `SKNP` with `V[X] > 15`; carries that value (spec/44_keys_timers.md R100, R101).
  Safe (log 7). -/
  | keyIndexOutOfRange (value : Byte)
  deriving DecidableEq, Repr

/-- Why the model gives no meaning. Every instruction has its meaning, so no step of this model refuses. -/
inductive Refusal where
  /-- Raised only by an arm of `exec` whose instruction has no meaning yet: none. Safe. -/
  | notModelled (mnemonic : String)
  deriving DecidableEq, Repr

/-- The frame buffer with every pixel unset (spec/70_reset_and_hazards.md R130). -/
def blankFrame : Frame := Vector.replicate 32 (Vector.replicate 64 false)

/-- The machine right after `initialize` (spec/70_reset_and_hazards.md R130, spec/10_state.md section 9). The spec
gives every value; `draws` is the model's own (DESIGN CHOICE 0, log 1). -/
def State.reset : State where
  v := Vector.replicate 16 0
  i := 0
  pc := 0x200
  sp := 0
  stack := Vector.replicate 16 0
  dt := 0
  st := 0
  key := Vector.replicate 16 false
  fb := blankFrame
  needsRedraw := false
  mem := []
  draws := 0

end Sys2Proof.Machine
end

