-- ==== Sys2Proof/Machine/Ops.lean ====
section
/-! DEFINITION. The named operations over registers, program counter, stack, timers and memory that every meaning is
built from, and the one operation that raises a fault. The machine has no exception entry and no return from one: a
fault ends the step, saves nothing and goes nowhere (spec/60_exceptions.md R112, R113). -/

namespace Sys2Proof.Machine

/-! ### Outcomes -/

/-- Raising a fault (spec/60_exceptions.md R112): the step ends, no state changes, nothing is saved, no handler runs.
The outcome carries no state because the state is the one before the step (log 14). -/
def raise (f : Fault) : Host.Outcome State Fault Refusal := .fault f

/-! ### Registers -/

/-- `V[x]` (spec/00_scope.md R8). -/
def State.reg (s : State) (x : Reg) : Byte := s.v[x]

/-- `V[x] <- b`. No register is hardwired (spec/10_state.md R12). -/
def State.setReg (s : State) (x : Reg) (b : Byte) : State := { s with v := s.v.set x b }

/-- A flag as the byte written to `VF`: always 0 or 1 (spec/10_state.md R14). -/
def flagByte (flag : Bool) : Byte := if flag then 1 else 0

/-- `VF <- flag` (spec/10_state.md R14). -/
def State.setFlag (s : State) (flag : Bool) : State := s.setReg 15 (flagByte flag)

/-- The result, then the flag: with `x = 15` the flag is what remains (spec/10_state.md R15, log 8). -/
def State.setRegThenFlag (s : State) (x : Reg) (b : Byte) (flag : Bool) : State := (s.setReg x b).setFlag flag

/-- `I <- w` (spec/10_state.md R18). -/
def State.setIndex (s : State) (w : Word) : State := { s with i := w }

/-- `V[k] <- bytes[k]` for each byte given, from `V[0]` upwards; the registers above keep their values
(spec/42_index_memory.md R90). -/
def State.setRegs (s : State) (bytes : List Byte) : State :=
  { s with v := Vector.ofFn fun k : Fin 16 => bytes.getD k.val s.v[k] }

/-- `V[0]` to `V[x]`, ascending (spec/42_index_memory.md R89). -/
def State.regsUpTo (s : State) (x : Reg) : List Byte := s.v.toList.take (x.val + 1)

/-! ### Program counter -/

/-- `pc <- target` (spec/00_scope.md R8). -/
def State.jump (s : State) (target : Word) : State := { s with pc := target }

/-- The engine's `pc <- (PC + 2) mod 65536` for an instruction that does not assign `pc` (spec/10_state.md R27). -/
def State.advance (s : State) : State := s.jump (s.pc + 2)

/-- A conditional skip: `+4` when the condition holds, else the engine's `+2` (spec/10_state.md R17, R27). -/
def State.skipIf (s : State) (condition : Bool) : State :=
  if condition then s.jump (s.pc + 4) else s.advance

/-! ### Stack -/

/-- Pushing a return address: a fault when the stack is full (spec/40_flow.md R62). -/
def State.push (s : State) (w : Word) : Except Fault State :=
  if h : s.sp.val < 16 then
    .ok { s with stack := s.stack.set s.sp.val w, sp := ⟨s.sp.val + 1, by omega⟩ }
  else .error (.stackOverflow s.pc)

/-- Popping a return address: a fault when the stack is empty; the popped entry keeps its value
(spec/40_flow.md R61). -/
def State.pop (s : State) : Except Fault (Word × State) :=
  if h : 0 < s.sp.val then
    .ok (s.stack[s.sp.val - 1]'(by omega), { s with sp := ⟨s.sp.val - 1, by omega⟩ })
  else .error (.stackUnderflow s.pc)

/-! ### Timers -/

/-- One decrement, clamped at 0 (spec/60_exceptions.md R118). -/
def countDown (t : Byte) : Byte := if t = 0 then 0 else t - 1

/-- The tick, phase 4 of every completed step: both timers, independently (spec/60_exceptions.md R118). -/
def State.tick (s : State) : State := { s with dt := countDown s.dt, st := countDown s.st }

/-! ### Memory -/

/-- What a cell holds after `initialize` and before anything is stored there: the font, then zeros
(spec/20_memory.md R31, R42; spec/70_reset_and_hazards.md R130). -/
def Memory.unlisted (a : Nat) : Byte := Config.font.getD a 0

/-- The byte of a cell: the listed one, else its reset contents (spec/20_memory.md R33). -/
def Memory.read : Memory → Nat → Byte
  | [], a => Memory.unlisted a
  | c :: m, a => if c.1 = a then c.2 else Memory.read m a

/-- The list with a cell put in its place by address. -/
def Memory.insert (c : Host.Cell) : Memory → Memory
  | [] => [c]
  | d :: m => if c.1 < d.1 then c :: d :: m else d :: Memory.insert c m

/-- The list without the cell of an address. -/
def Memory.erase (m : Memory) (a : Nat) : Memory := m.filter fun c => c.1 != a

/-- Storing a byte: the cell is listed exactly when its byte is not its reset contents (log 26). -/
def Memory.write (m : Memory) (a : Nat) (b : Byte) : Memory :=
  if b = Memory.unlisted a then m.erase a else Memory.insert (a, b) (m.erase a)

/-- The canonical form from an address on: addresses strictly rising and inside memory, no byte equal to the reset
contents of its cell. -/
def Memory.wfFrom : Nat → Memory → Bool
  | _, [] => true
  | lo, c :: m => lo ≤ c.1 && c.1 < Config.memSize && c.2 != Memory.unlisted c.1 && Memory.wfFrom (c.1 + 1) m

/-- The canonical form of memory (log 26). -/
def Memory.wf (m : Memory) : Bool := Memory.wfFrom 0 m

/-- Storing bytes at consecutive addresses, ascending. -/
def Memory.writeBytes (m : Memory) (a : Nat) : List Byte → Memory
  | [] => m
  | b :: bs => Memory.writeBytes (m.write a b) (a + 1) bs

/-- `MemRead(addr, 1)`: a fault above `0xFFF` (spec/20_memory.md R36). -/
def State.memRead (s : State) (a : Nat) : Except Fault Byte :=
  if a < Config.memSize then .ok (s.mem.read a) else .error (.addressOverflow a)

/-- `MemWrite(addr, 1, v)`: a fault above `0xFFF` (spec/20_memory.md R36). No cell is protected (R37). -/
def State.memWrite (s : State) (a : Nat) (b : Byte) : Except Fault State :=
  if a < Config.memSize then .ok { s with mem := s.mem.write a b } else .error (.addressOverflow a)

/-- `n` bytes from consecutive addresses, ascending. -/
def State.loadBytes (s : State) (a : Nat) : Nat → Except Fault (List Byte)
  | 0 => .ok []
  | n + 1 =>
    match s.memRead a with
    | .error f => .error f
    | .ok b =>
      match s.loadBytes (a + 1) n with
      | .error f => .error f
      | .ok bs => .ok (b :: bs)

/-- Bytes to consecutive addresses, ascending. -/
def State.storeBytes (s : State) (a : Nat) : List Byte → Except Fault State
  | [] => .ok s
  | b :: bs =>
    match s.memWrite a b with
    | .error f => .error f
    | .ok t => t.storeBytes (a + 1) bs

/-- `MemRead(PC, 2)` of the fetch: big-endian, a fault carrying `PC` when `PC > 0xFFE`
(spec/10_state.md R26 phase 1, spec/20_memory.md R32, R35, R36). Nothing is cached: a stored byte is fetched at once
(R40). -/
def State.fetchWord (s : State) : Except Fault Word :=
  if 0xFFE < s.pc.toNat then .error (.addressOverflow s.pc.toNat)
  else
    match s.memRead s.pc.toNat, s.memRead (s.pc.toNat + 1) with
    | .ok high, .ok low => .ok (wordOfBytes high low)
    | .error f, _ => .error f
    | .ok _, .error f => .error f

end Sys2Proof.Machine
end

