-- ==== Sys2Proof/Machine/Operands.lean ====
section
/-! DEFINITION. The operand forms: the zero-extended address (spec/30_encoding.md R47), the one data addressing mode
`I + k` with its range check (spec/42_index_memory.md R91, spec/20_memory.md R35), the key named by a register
(spec/44_keys_timers.md R100) and the scan of the keys (R102), the decimal digits of a byte
(spec/42_index_memory.md R88), and the next random byte (spec/41_alu.md R82). Register and immediate operands need no
form of their own. -/

namespace Sys2Proof.Machine

/-- `zext_16(NNN)` (spec/30_encoding.md R47). -/
def addressOperand (nnn : Address) : Word := nnn.zeroExtend 16

/-- The base address of every data access: `I`, exact, never wrapped (spec/42_index_memory.md R91). -/
def State.base (s : State) : Nat := s.i.toNat

/-- The range check an instruction makes before it reads or writes any of the `count` bytes from `I` on: when the
last address is above `0xFFF`, the fault with the lowest offending address, `max(I, 0x1000)`
(spec/20_memory.md R35, spec/42_index_memory.md R91). With no byte to access there is no fault (R96). -/
def State.checkRange (s : State) (count : Nat) : Except Fault Unit :=
  if 0 < count ∧ Config.memSize < s.base + count then .error (.addressOverflow (max s.base Config.memSize))
  else .ok ()

/-- The key a register names by its whole 8-bit value; above 15 a fault (spec/44_keys_timers.md R100, log 7). -/
def keyOperand (b : Byte) : Except Fault Key :=
  if h : b.toNat < 16 then .ok ⟨b.toNat, h⟩ else .error (.keyIndexOutOfRange b)

/-- The least key that is down, if any (spec/44_keys_timers.md R102, log 12). -/
def State.leastKeyDown (s : State) : Option Key := (List.finRange 16).find? fun k => s.key[k]

/-- The hundreds, tens and ones digits of a byte (spec/42_index_memory.md R88). -/
def decimalDigits (b : Byte) : List Byte :=
  [BitVec.ofNat 8 (b.toNat / 100), BitVec.ofNat 8 (b.toNat / 10 % 10), BitVec.ofNat 8 (b.toNat % 10)]

/-- `rnd`: the random byte this step is given (spec/10_state.md R25, spec/41_alu.md R82). A free value (log 1). -/
def State.randomByte (s : State) : Byte := Config.randomByte s.draws

/-- The random byte has been consumed: the next `RND` gets the next one (log 1). -/
def State.consumeRandom (s : State) : State := { s with draws := s.draws + 1 }

end Sys2Proof.Machine
end

