-- ==== Sys2Proof/Machine/Flags.lean ====
section
/-! DEFINITION. Every flag computation of spec/10_state.md R14 but the collision, which is computed by the draw itself
(Machine/Display.lean). Each is over the operand values read before any write (R15). -/

namespace Sys2Proof.Machine

/-- `ADD Vx, Vy`: the unsigned sum exceeds 255 (spec/41_alu.md R77). -/
def carryOut (a b : Byte) : Bool := 255 < a.toNat + b.toNat

/-- `SUB`, `SUBN`: the minuend is strictly greater; equal operands give false (spec/41_alu.md R78, R80; C1, log 27). -/
def strictlyGreater (minuend subtrahend : Byte) : Bool := subtrahend.toNat < minuend.toNat

/-- `SHR`: the bit shifted out, bit 0 (spec/41_alu.md R79). -/
def lowestBit (a : Byte) : Bool := a.getLsbD 0

/-- `SHL`: the bit shifted out, bit 7 (spec/41_alu.md R81). -/
def highestBit (a : Byte) : Bool := a.getLsbD 7

/-- `ADD I, Vx`: the exact sum is above `0xFFF` (spec/42_index_memory.md R86, log 10). -/
def indexOverflow (index : Word) (a : Byte) : Bool := 0xFFF < index.toNat + a.toNat

end Sys2Proof.Machine
end

