-- ==== Sys2Proof/Machine/Alu.lean ====
section
/-! DEFINITION. Register load, arithmetic, logic, shifts and random: the meanings of spec/41_alu.md. None assigns `pc`,
touches memory or faults. Results are the low 8 bits of the exact result (R72). -/

namespace Sys2Proof.Machine

/-- A result into `V[x]`, no flag, and on to the next instruction. -/
def State.finish (s : State) (x : Reg) (b : Byte) : Host.Outcome State Fault Refusal :=
  .next (s.setReg x b).advance

/-- A result into `V[x]`, then the flag into `VF`, and on to the next instruction (spec/41_alu.md R72). -/
def State.finishWithFlag (s : State) (x : Reg) (b : Byte) (flag : Bool) : Host.Outcome State Fault Refusal :=
  .next (s.setRegThenFlag x b flag).advance

/-- `LD Vx, kk` (spec/41_alu.md R70). -/
def execLdVxKk (x : Reg) (kk : Byte) (s : State) : Host.Outcome State Fault Refusal :=
  s.finish x kk

/-- `ADD Vx, kk` (spec/41_alu.md R71): wraps, no carry recorded. -/
def execAddVxKk (x : Reg) (kk : Byte) (s : State) : Host.Outcome State Fault Refusal :=
  s.finish x (s.reg x + kk)

/-- `LD Vx, Vy` (spec/41_alu.md R73). -/
def execLdVxVy (x y : Reg) (s : State) : Host.Outcome State Fault Refusal :=
  s.finish x (s.reg y)

/-- `OR Vx, Vy` (spec/41_alu.md R74): `VF` is left alone. -/
def execOrVxVy (x y : Reg) (s : State) : Host.Outcome State Fault Refusal :=
  s.finish x (s.reg x ||| s.reg y)

/-- `AND Vx, Vy` (spec/41_alu.md R75): `VF` is left alone. -/
def execAndVxVy (x y : Reg) (s : State) : Host.Outcome State Fault Refusal :=
  s.finish x (s.reg x &&& s.reg y)

/-- `XOR Vx, Vy` (spec/41_alu.md R76): `VF` is left alone. -/
def execXorVxVy (x y : Reg) (s : State) : Host.Outcome State Fault Refusal :=
  s.finish x (s.reg x ^^^ s.reg y)

/-- `ADD Vx, Vy` (spec/41_alu.md R77). -/
def execAddVxVy (x y : Reg) (s : State) : Host.Outcome State Fault Refusal :=
  s.finishWithFlag x (s.reg x + s.reg y) (carryOut (s.reg x) (s.reg y))

/-- `SUB Vx, Vy` (spec/41_alu.md R78). -/
def execSubVxVy (x y : Reg) (s : State) : Host.Outcome State Fault Refusal :=
  s.finishWithFlag x (s.reg x - s.reg y) (strictlyGreater (s.reg x) (s.reg y))

/-- `SHR Vx` (spec/41_alu.md R79): `V[x]` is shifted in place, `y` is ignored (log 9). -/
def execShrVx (x _y : Reg) (s : State) : Host.Outcome State Fault Refusal :=
  s.finishWithFlag x (s.reg x >>> 1) (lowestBit (s.reg x))

/-- `SUBN Vx, Vy` (spec/41_alu.md R80): `V[y] - V[x]` into `V[x]`. -/
def execSubnVxVy (x y : Reg) (s : State) : Host.Outcome State Fault Refusal :=
  s.finishWithFlag x (s.reg y - s.reg x) (strictlyGreater (s.reg y) (s.reg x))

/-- `SHL Vx` (spec/41_alu.md R81): a shift in place, not a rotate; `y` is ignored (log 9). -/
def execShlVx (x _y : Reg) (s : State) : Host.Outcome State Fault Refusal :=
  s.finishWithFlag x (s.reg x <<< 1) (highestBit (s.reg x))

/-- `RND` with the random byte given: `V[x] <- rnd & kk` (spec/41_alu.md R82). -/
def State.finishRandom (s : State) (x : Reg) (kk rnd : Byte) : Host.Outcome State Fault Refusal :=
  s.consumeRandom.finish x (rnd &&& kk)

/-- `RND Vx, kk` (spec/41_alu.md R82): the random byte is the step's free input (log 1). -/
def execRndVxKk (x : Reg) (kk : Byte) (s : State) : Host.Outcome State Fault Refusal :=
  s.finishRandom x kk s.randomByte

end Sys2Proof.Machine
end

