-- ==== Sys2Proof/Machine/Display.lean ====
section
/-! DEFINITION. The frame buffer: the meanings of spec/43_display.md, and the drawing loop of R96 as the spec writes
it, rows outside, columns inside, pixel by pixel. -/

namespace Sys2Proof.Machine

/-- `fb[y][x]` (spec/10_state.md R23). -/
def Frame.pixel (fb : Frame) (y : Fin 32) (x : Fin 64) : Bool := fb[y][x]

/-- `fb[y][x] <- not fb[y][x]`. -/
def Frame.toggle (fb : Frame) (y : Fin 32) (x : Fin 64) : Frame := fb.set y (fb[y].set x (!fb[y][x]))

/-- One sprite pixel that is 1: a collision if the pixel was set, and the pixel is toggled. The pair is the frame
buffer and `collision` (spec/43_display.md R96). -/
def drawPixel (acc : Frame × Bool) (y : Fin 32) (x : Fin 64) : Frame × Bool :=
  (Frame.toggle acc.1 y x, acc.2 || Frame.pixel acc.1 y x)

/-- Columns `c` to 7 of one sprite row, where `n = 8 - c`: bit `7 - c` is the pixel at column `(x0 + c) mod 64`
(spec/43_display.md R96, log 15). -/
def drawColumns (x0 : Nat) (y : Fin 32) (b : Byte) : Nat → Frame × Bool → Frame × Bool
  | 0, acc => acc
  | n + 1, acc =>
    let acc' := if b.getLsbD n then drawPixel acc y (Fin.ofNat 64 (x0 + (7 - n))) else acc
    drawColumns x0 y b n acc'

/-- The sprite rows, the first at row `y0 mod 32`, each next one a row lower, wrapping (spec/43_display.md R96). -/
def drawRows (x0 : Nat) : Nat → List Byte → Frame × Bool → Frame × Bool
  | _, [], acc => acc
  | y0, b :: bs, acc => drawRows x0 (y0 + 1) bs (drawColumns x0 (Fin.ofNat 32 y0) b 8 acc)

/-- `CLS` (spec/43_display.md R95): `needsRedraw` is set whatever the pixels were (log 16). -/
def execCls (s : State) : Host.Outcome State Fault Refusal :=
  .next ({ s with fb := blankFrame, needsRedraw := true } : State).advance

/-- `DRW Vx, Vy, n` (spec/43_display.md R96): the range is checked first, the coordinates are read before `VF` is
written, and `VF` and `needsRedraw` are written on every execution, `n = 0` included. -/
def execDrwVxVyN (x y : Reg) (n : Height) (s : State) : Host.Outcome State Fault Refusal :=
  match s.checkRange n.val with
  | .error f => raise f
  | .ok _ =>
    match s.loadBytes s.base n.val with
    | .error f => raise f
    | .ok sprite =>
      let drawn := drawRows (s.reg x).toNat (s.reg y).toNat sprite (s.fb, false)
      .next (({ s with fb := drawn.1, needsRedraw := true } : State).setFlag drawn.2).advance

end Sys2Proof.Machine
end

