-- ==== Sys2Proof/Machine/Flow.lean ====
section
/-! DEFINITION. Control transfer: the meanings of spec/40_flow.md. Each assigns `pc` itself; there are no delay slots
and targets are neither aligned nor checked (R68). -/

namespace Sys2Proof.Machine

/-- `JP nnn` (spec/40_flow.md R60). -/
def execJpNnn (nnn : Address) (s : State) : Host.Outcome State Fault Refusal :=
  .next (s.jump (addressOperand nnn))

/-- `RET` (spec/40_flow.md R61): underflow on an empty stack; else control resumes after the call. -/
def execRet (s : State) : Host.Outcome State Fault Refusal :=
  match s.pop with
  | .error f => raise f
  | .ok (w, t) => .next (t.jump (w + 2))

/-- `CALL nnn` (spec/40_flow.md R62): overflow on a full stack; else the call's own address is pushed. -/
def execCallNnn (nnn : Address) (s : State) : Host.Outcome State Fault Refusal :=
  match s.push s.pc with
  | .error f => raise f
  | .ok t => .next (t.jump (addressOperand nnn))

/-- `JP V0, nnn` (spec/40_flow.md R63): at most `0x10FE`, not reduced modulo 4096. -/
def execJpV0Nnn (nnn : Address) (s : State) : Host.Outcome State Fault Refusal :=
  .next (s.jump (addressOperand nnn + (s.reg 0).zeroExtend 16))

/-- `SE Vx, kk` (spec/40_flow.md R64). -/
def execSeVxKk (x : Reg) (kk : Byte) (s : State) : Host.Outcome State Fault Refusal :=
  .next (s.skipIf (s.reg x == kk))

/-- `SNE Vx, kk` (spec/40_flow.md R65). -/
def execSneVxKk (x : Reg) (kk : Byte) (s : State) : Host.Outcome State Fault Refusal :=
  .next (s.skipIf (s.reg x != kk))

/-- `SE Vx, Vy` (spec/40_flow.md R66). -/
def execSeVxVy (x y : Reg) (s : State) : Host.Outcome State Fault Refusal :=
  .next (s.skipIf (s.reg x == s.reg y))

/-- `SNE Vx, Vy` (spec/40_flow.md R67). -/
def execSneVxVy (x y : Reg) (s : State) : Host.Outcome State Fault Refusal :=
  .next (s.skipIf (s.reg x != s.reg y))

end Sys2Proof.Machine
end

