-- ==== Sys2Proof/Machine/IndexMemory.lean ====
section
/-! DEFINITION. Index register and memory: the meanings of spec/42_index_memory.md. None assigns `pc`; the three that
access memory check their whole range first and leave `I` alone (R91). -/

namespace Sys2Proof.Machine

/-- `LD I, nnn` (spec/42_index_memory.md R85). -/
def execLdINnn (nnn : Address) (s : State) : Host.Outcome State Fault Refusal :=
  .next (s.setIndex (addressOperand nnn)).advance

/-- `ADD I, Vx` (spec/42_index_memory.md R86): all 16 bits of the sum, `VF` written on every execution. -/
def execAddIVx (x : Reg) (s : State) : Host.Outcome State Fault Refusal :=
  .next ((s.setIndex (s.i + (s.reg x).zeroExtend 16)).setFlag (indexOverflow s.i (s.reg x))).advance

/-- `LD F, Vx` (spec/42_index_memory.md R87): the whole register times 5, memory is not read. -/
def execLdFVx (x : Reg) (s : State) : Host.Outcome State Fault Refusal :=
  .next (s.setIndex (BitVec.ofNat 16 ((s.reg x).toNat * 5))).advance

/-- Bytes stored from `I` on, the whole range checked first, and on to the next instruction
(spec/20_memory.md R35, R36). -/
def State.storeFromIndex (s : State) (bytes : List Byte) : Host.Outcome State Fault Refusal :=
  match s.checkRange bytes.length with
  | .error f => raise f
  | .ok _ =>
    match s.storeBytes s.base bytes with
    | .error f => raise f
    | .ok t => .next t.advance

/-- `LD B, Vx` (spec/42_index_memory.md R88). -/
def execLdBVx (x : Reg) (s : State) : Host.Outcome State Fault Refusal :=
  s.storeFromIndex (decimalDigits (s.reg x))

/-- `LD [I], Vx` (spec/42_index_memory.md R89): `V[0]` to `V[x]`, `I` unchanged. -/
def execLdMemIVx (x : Reg) (s : State) : Host.Outcome State Fault Refusal :=
  s.storeFromIndex (s.regsUpTo x)

/-- `LD Vx, [I]` (spec/42_index_memory.md R90): into `V[0]` to `V[x]`, `I` unchanged. -/
def execLdVxMemI (x : Reg) (s : State) : Host.Outcome State Fault Refusal :=
  match s.checkRange (x.val + 1) with
  | .error f => raise f
  | .ok _ =>
    match s.loadBytes s.base (x.val + 1) with
    | .error f => raise f
    | .ok bytes => .next (s.setRegs bytes).advance

end Sys2Proof.Machine
end

