-- ==== Sys2Proof/Machine/KeysTimers.lean ====
section
/-! DEFINITION. Keys and timers: the meanings of spec/44_keys_timers.md. The tick of the same step comes after the
meaning (spec/60_exceptions.md R118), in Machine/Fetch.lean. -/

namespace Sys2Proof.Machine

/-- `SKP Vx` (spec/44_keys_timers.md R100). -/
def execSkpVx (x : Reg) (s : State) : Host.Outcome State Fault Refusal :=
  match keyOperand (s.reg x) with
  | .error f => raise f
  | .ok k => .next (s.skipIf s.key[k])

/-- `SKNP Vx` (spec/44_keys_timers.md R101). -/
def execSknpVx (x : Reg) (s : State) : Host.Outcome State Fault Refusal :=
  match keyOperand (s.reg x) with
  | .error f => raise f
  | .ok k => .next (s.skipIf (!s.key[k]))

/-- `LD Vx, K` (spec/44_keys_timers.md R102): the least key down; with none, a completed step that leaves `pc` alone,
so that the same instruction runs again. -/
def execLdVxK (x : Reg) (s : State) : Host.Outcome State Fault Refusal :=
  match s.leastKeyDown with
  | some k => .next (s.setReg x (BitVec.ofNat 8 k.val)).advance
  | none => .next (s.jump s.pc)

/-- `LD Vx, DT` (spec/44_keys_timers.md R103): the value before this step's tick. -/
def execLdVxDt (x : Reg) (s : State) : Host.Outcome State Fault Refusal :=
  .next (s.setReg x s.dt).advance

/-- `LD DT, Vx` (spec/44_keys_timers.md R104). -/
def execLdDtVx (x : Reg) (s : State) : Host.Outcome State Fault Refusal :=
  .next ({ s with dt := s.reg x } : State).advance

/-- `LD ST, Vx` (spec/44_keys_timers.md R105). -/
def execLdStVx (x : Reg) (s : State) : Host.Outcome State Fault Refusal :=
  .next ({ s with st := s.reg x } : State).advance

end Sys2Proof.Machine
end

