-- ==== Sys2Proof/Machine/Fetch.lean ====
section
/-! DEFINITION. The phases around the execute phase: fetch and decode, and the tick at the end of a completed step
(spec/10_state.md R26), and where an instruction word is placed so that the next step fetches it. -/

namespace Sys2Proof.Machine

/-- Phases 1 and 2: the fetched word and its instruction, or the first fault in phase order
(spec/10_state.md R26, spec/60_exceptions.md R116). -/
def State.fetchInstr (s : State) : Except Fault Instr :=
  match s.fetchWord with
  | .error f => .error f
  | .ok w =>
    match decode w with
    | .error (.unknownInstruction raw) => .error (.unknownInstruction raw)
    | .ok i => .ok i

/-- Phase 4: the tick runs on every completed step and on no faulted one (spec/10_state.md R28, log 13). -/
def endStep (o : Host.Outcome State Fault Refusal) : Host.Outcome State Fault Refusal :=
  match o with
  | .next s => .next s.tick
  | .fault f => raise f
  | .refused r => .refused r

/-- Phases 1 to 4 (spec/10_state.md R26). -/
def State.runStep (s : State) : Host.Outcome State Fault Refusal :=
  match s.fetchInstr with
  | .error f => raise f
  | .ok i => endStep (exec i s)

/-- The word stored big-endian at `PC`, where the next fetch reads it. Where `PC > 0xFFE` no fetch succeeds and
nothing is stored (log 25). -/
def State.placeWord (s : State) (w : Word) : State :=
  if 0xFFE < s.pc.toNat then s
  else { s with mem := s.mem.writeBytes s.pc.toNat [highByte w, lowByte w] }

end Sys2Proof.Machine
end

