-- ==== Sys2Proof/Machine/Step.lean ====
section
/-! DEFINITION. The step of the machine (spec/10_state.md R26) and the host's way to place one instruction. -/

namespace Sys2Proof.Machine

/-- One fetch-decode-execute-tick cycle (spec/10_state.md R26). -/
def step (s : State) : Host.Outcome State Fault Refusal := s.runStep

/-- The instruction of an opcode-table row stored where the next step fetches it; nothing else changes. It stands for
the load of a program from outside (log 25). -/
def State.withFetchWord (s : State) (nbits w : Nat) : State := s.placeWord (tableWord nbits w)

end Sys2Proof.Machine
end

