-- ==== Sys2Proof/Machine/HostPort.lean ====
section
/-! DEFINITION. The interface of the core to its host (spec/10_state.md R25, spec/60_exceptions.md R121 to R124): the
actions the host may take between steps, when each is allowed, what the core answers, and a session that interleaves
them with steps in the order of spec/70_reset_and_hazards.md R131. -/

namespace Sys2Proof.Machine

/-- `initialize`: every member of the state to its reset value, whatever it was (spec/70_reset_and_hazards.md R130).
The random bytes already consumed stay consumed: the source is the host's, not the machine's (log 24). -/
def State.restart (s : State) : State := { State.reset with draws := s.draws }

/-- Why `load` fails (spec/20_memory.md R41). Not a fault of the core (spec/60_exceptions.md R128); reading the image
file is outside the hardware (spec/00_scope.md R5). -/
inductive LoadError where
  | programTooLarge
  deriving DecidableEq, Repr

/-- `load(image)`: the image copied to `0x200` on, nothing else changed; an image above 3584 bytes is refused whole
(spec/20_memory.md R41, spec/70_reset_and_hazards.md R132). -/
def State.load (s : State) (image : List Byte) : Except LoadError State :=
  if Config.maxImage < image.length then .error .programTooLarge
  else .ok { s with mem := s.mem.writeBytes Config.loadBase image }

/-- `setKey(index, down)` (spec/60_exceptions.md R123). -/
def State.setKey (s : State) (k : Key) (down : Bool) : State := { s with key := s.key.set k down }

/-- The host has consumed the frame: `needsRedraw <- false` (spec/60_exceptions.md R122). -/
def State.clearRedraw (s : State) : State := { s with needsRedraw := false }

/-- The snapshot of the frame buffer the display reads (spec/60_exceptions.md R122). -/
def State.snapshot (s : State) : Frame := s.fb

/-- `soundTimerActive`, exactly `ST != 0` (spec/60_exceptions.md R121). -/
def State.soundTimerActive (s : State) : Bool := s.st != 0

/-- The numeric label of a fault kind (spec/60_exceptions.md R110). -/
def Fault.code : Fault → Nat
  | .unknownInstruction _ => 1
  | .addressOverflow _ => 2
  | .stackUnderflow _ => 3
  | .stackOverflow _ => 4
  | .keyIndexOutOfRange _ => 5

/-- The `info` a fault records (spec/60_exceptions.md R110). -/
def Fault.info : Fault → Nat
  | .unknownInstruction word => word.toNat
  | .addressOverflow address => address
  | .stackUnderflow pc => pc.toNat
  | .stackOverflow pc => pc.toNat
  | .keyIndexOutOfRange value => value.toNat

/-- What the host may do between two steps, and the request of a step (spec/60_exceptions.md R124). The reads of the
frame buffer, of `needsRedraw` and of `soundTimerActive` change nothing and are functions of the state. -/
inductive HostAction where
  | restart
  | load (image : List Byte)
  | setKey (k : Key) (down : Bool)
  | clearRedraw
  | step
  deriving DecidableEq, Repr

/-- What the core answers: an action done, a load that failed, of a step `ok` or the fault (spec/10_state.md R25), and
`notAllowed` for an action taken when spec/60_exceptions.md R124 or R128 does not allow it (log 31). -/
inductive Reply where
  | done
  | loadFailed (e : LoadError)
  | ok
  | fault (f : Fault)
  | refused (r : Refusal)
  | notAllowed
  deriving DecidableEq, Repr

/-- A requested step as the host sees it: its result and the state after; a faulted step leaves the state exactly as
it was (spec/60_exceptions.md R112). -/
def State.requestStep (s : State) : Reply × State :=
  match step s with
  | .next t => (.ok, t)
  | .fault f => (.fault f, s)
  | .refused r => (.refused r, s)

/-- How far the host is in the boot order of spec/70_reset_and_hazards.md R131. It is no state of the machine
(spec/10_state.md R11): it decides only which host actions are allowed. -/
inductive Phase where
  /-- `initialize` has run, and neither a load nor a step since. -/
  | initialized
  /-- The one load of the session has succeeded, and no step has been requested (D29). -/
  | loaded
  /-- A step has been requested, completed or faulted. -/
  | stepping
  /-- The load failed, which is fatal to the start of the session (spec/60_exceptions.md R128). -/
  | startFailed
  deriving DecidableEq, Repr

/-- The column "when allowed" of spec/60_exceptions.md R124: `initialize` always, `load` after `initialize` and before
the first step, once (D29), the others always, but none in a session whose start failed (R128; log 31). -/
def Phase.allows : Phase → HostAction → Bool
  | _, .restart => true
  | .initialized, .load _ => true
  | .loaded, .load _ | .stepping, .load _ => false
  | .initialized, .setKey _ _ | .loaded, .setKey _ _ | .stepping, .setKey _ _ => true
  | .initialized, .clearRedraw | .loaded, .clearRedraw | .stepping, .clearRedraw => true
  | .initialized, .step | .loaded, .step | .stepping, .step => true
  | .startFailed, .load _ | .startFailed, .setKey _ _ | .startFailed, .clearRedraw | .startFailed, .step => false

/-- A session of the host with the core: the state of the machine and the phase the host is in. -/
structure Session where
  state : State
  phase : Phase
  deriving DecidableEq, Repr

/-- The session right after its `initialize` (spec/70_reset_and_hazards.md R131). -/
def Session.start : Session := { state := State.reset, phase := .initialized }

/-- The effect of an action that is allowed (spec/60_exceptions.md R124). -/
def Session.perform (h : Session) : HostAction → Reply × Session
  | .restart => (.done, { state := h.state.restart, phase := .initialized })
  | .load image =>
    match h.state.load image with
    | .error e => (.loadFailed e, { h with phase := .startFailed })
    | .ok t => (.done, { state := t, phase := .loaded })
  | .setKey k down => (.done, { h with state := h.state.setKey k down })
  | .clearRedraw => (.done, { h with state := h.state.clearRedraw })
  | .step => (h.state.requestStep.1, { state := h.state.requestStep.2, phase := .stepping })

/-- One host action: carried out when it is allowed, else turned away with no effect (log 31). -/
def Session.act (h : Session) (a : HostAction) : Reply × Session :=
  if h.phase.allows a then h.perform a else (.notAllowed, h)

/-- Host actions and steps in the order the host takes them (spec/10_state.md R25, R29): the answers, and the session
after the last. -/
def Session.run (h : Session) : List HostAction → List Reply × Session
  | [] => ([], h)
  | a :: rest => ((h.act a).1 :: ((h.act a).2.run rest).1, ((h.act a).2.run rest).2)

end Sys2Proof.Machine
end

