-- ==== Sys2Proof/Safety.lean ====
section
/-! DEFINITION. The terms claims use: safe steps and runs, the invariant, the idle end of a program, a run that stays
at a stack depth, a run without an instruction of a kind, which instruction may write what and where `pc` goes (the
tables of spec/10_state.md R14, R17, R18), the causes of faults (spec/60_exceptions.md R110), and which pixels a sprite
covers (spec/43_display.md R96). These tables are written from the spec, not from the meanings: claims compare the
two. -/

namespace Sys2Proof.Machine

/-! ### Safe runs -/

/-- The step completes: its result is `ok` (spec/10_state.md R25). A fault is the bad end of a run
(spec/60_exceptions.md R113). -/
def Safe (s : State) : Prop := ∃ t, step s = .next t

/-- `n` steps complete, the host taking no action between them. -/
def SafeRun (n : Nat) (s : State) : Prop := ∃ t, Host.Core.run core n s = .next t

/-- What every step keeps, from any state that has it: memory in canonical form, every stack entry a fetchable
address (spec/40_flow.md R61: "in practice `stack[SP] <= 0xFFE`"), and `PC` at most the largest transfer target
(spec/40_flow.md R63). -/
abbrev State.Inv (s : State) : Prop :=
  s.mem.wf = true ∧ (∀ k : Fin 16, s.stack[k].toNat ≤ 0xFFE) ∧ s.pc.toNat ≤ 0x10FE

/-- The idle end of a program: a jump to its own address with both timers at 0 (spec/70_reset_and_hazards.md R139).
A model's own definition of a good end (log 29). -/
def State.Idle (s : State) : Prop :=
  (∃ nnn : Address, s.fetchInstr = .ok (.jpNnn nnn) ∧ nnn.toNat = s.pc.toNat) ∧ s.dt = 0 ∧ s.st = 0

/-- Steps during which the stack never holds fewer than `depth` entries (spec/40_flow.md R69). -/
inductive StaysAtDepth (depth : Nat) : State → State → Prop where
  | done (s : State) (h : depth ≤ s.sp.val) : StaysAtDepth depth s s
  | more (s t u : State) (h : depth ≤ s.sp.val) (one : step s = .next t) (rest : StaysAtDepth depth t u) :
      StaysAtDepth depth s u

/-- `n` completed steps, none of which runs an instruction of the given kind. -/
inductive StepsWithout (kind : Instr → Prop) : Nat → State → State → Prop where
  | done (s : State) : StepsWithout kind 0 s s
  | more (s t u : State) (n : Nat) (i : Instr) (fetched : s.fetchInstr = .ok i) (other : ¬ kind i)
      (one : step s = .next t) (rest : StepsWithout kind n t u) : StepsWithout kind (n + 1) s u

/-- An outcome with its next state changed; a fault or a refusal as it is. -/
def mapNext (f : State → State) : Host.Outcome State Fault Refusal → Host.Outcome State Fault Refusal
  | .next s => .next (f s)
  | .fault r => .fault r
  | .refused r => .refused r

/-! ### Tables of the spec -/

/-- Where `pc` is after an instruction that completes (spec/10_state.md R17). -/
def pcAfter (s : State) : Instr → Word
  | .jpNnn nnn => BitVec.ofNat 16 nnn.toNat
  | .callNnn nnn => BitVec.ofNat 16 nnn.toNat
  | .jpV0Nnn nnn => BitVec.ofNat 16 (nnn.toNat + s.v[0].toNat)
  | .ret => s.stack.toList.getD (s.sp.val - 1) 0 + 2
  | .seVxKk x kk => if s.v[x] = kk then s.pc + 4 else s.pc + 2
  | .sneVxKk x kk => if s.v[x] ≠ kk then s.pc + 4 else s.pc + 2
  | .seVxVy x y => if s.v[x] = s.v[y] then s.pc + 4 else s.pc + 2
  | .sneVxVy x y => if s.v[x] ≠ s.v[y] then s.pc + 4 else s.pc + 2
  | .skpVx x => if s.key.toList.getD s.v[x].toNat false = true then s.pc + 4 else s.pc + 2
  | .sknpVx x => if s.key.toList.getD s.v[x].toNat false = false then s.pc + 4 else s.pc + 2
  | .ldVxK _ => if ∃ k : Key, s.key[k] = true then s.pc + 2 else s.pc
  | .cls | .ldVxKk _ _ | .addVxKk _ _ | .ldVxVy _ _ | .orVxVy _ _ | .andVxVy _ _ | .xorVxVy _ _ | .addVxVy _ _
  | .subVxVy _ _ | .shrVx _ _ | .subnVxVy _ _ | .shlVx _ _ | .ldINnn _ | .rndVxKk _ _ | .drwVxVyN _ _ _ | .ldVxDt _
  | .ldDtVx _ | .ldStVx _ | .addIVx _ | .ldFVx _ | .ldBVx _ | .ldMemIVx _ | .ldVxMemI _ => s.pc + 2

/-- The seven instructions that write `VF` as a side effect (spec/10_state.md R14). -/
def writesFlag : Instr → Bool
  | .addVxVy _ _ | .subVxVy _ _ | .shrVx _ _ | .subnVxVy _ _ | .shlVx _ _ | .addIVx _ | .drwVxVyN _ _ _ => true
  | .cls | .ret | .jpNnn _ | .callNnn _ | .seVxKk _ _ | .sneVxKk _ _ | .seVxVy _ _ | .ldVxKk _ _ | .addVxKk _ _
  | .ldVxVy _ _ | .orVxVy _ _ | .andVxVy _ _ | .xorVxVy _ _ | .sneVxVy _ _ | .ldINnn _ | .jpV0Nnn _
  | .rndVxKk _ _ | .skpVx _ | .sknpVx _ | .ldVxDt _ | .ldVxK _ | .ldDtVx _ | .ldStVx _ | .ldFVx _ | .ldBVx _
  | .ldMemIVx _ | .ldVxMemI _ => false

/-- The register is a destination the instruction names: its `X`, or `V[0]` to `V[X]` for the register load
(spec/41_alu.md, spec/42_index_memory.md R90, spec/44_keys_timers.md R102, R103). -/
def isDestination (r : Reg) : Instr → Bool
  | .ldVxKk x _ | .addVxKk x _ | .ldVxVy x _ | .orVxVy x _ | .andVxVy x _ | .xorVxVy x _ | .addVxVy x _
  | .subVxVy x _ | .shrVx x _ | .subnVxVy x _ | .shlVx x _ | .rndVxKk x _ | .ldVxDt x | .ldVxK x => r == x
  | .ldVxMemI x => r.val ≤ x.val
  | .cls | .ret | .jpNnn _ | .callNnn _ | .seVxKk _ _ | .sneVxKk _ _ | .seVxVy _ _ | .sneVxVy _ _ | .ldINnn _
  | .jpV0Nnn _ | .drwVxVyN _ _ _ | .skpVx _ | .sknpVx _ | .ldDtVx _ | .ldStVx _ | .addIVx _ | .ldFVx _ | .ldBVx _
  | .ldMemIVx _ => false

/-- When an instruction's execute phase raises a fault, and which (spec/60_exceptions.md R110, R116). -/
def execFault (s : State) : Instr → Option Fault
  | .ret => if s.sp.val = 0 then some (.stackUnderflow s.pc) else none
  | .callNnn _ => if s.sp.val = 16 then some (.stackOverflow s.pc) else none
  | .drwVxVyN _ _ n =>
    if 0 < n.val ∧ 0xFFF < s.i.toNat + n.val - 1 then some (.addressOverflow (max s.i.toNat 0x1000)) else none
  | .ldBVx _ => if 0xFFF < s.i.toNat + 2 then some (.addressOverflow (max s.i.toNat 0x1000)) else none
  | .ldMemIVx x => if 0xFFF < s.i.toNat + x.val then some (.addressOverflow (max s.i.toNat 0x1000)) else none
  | .ldVxMemI x => if 0xFFF < s.i.toNat + x.val then some (.addressOverflow (max s.i.toNat 0x1000)) else none
  | .skpVx x => if 15 < s.v[x].toNat then some (.keyIndexOutOfRange s.v[x]) else none
  | .sknpVx x => if 15 < s.v[x].toNat then some (.keyIndexOutOfRange s.v[x]) else none
  | .cls | .jpNnn _ | .seVxKk _ _ | .sneVxKk _ _ | .seVxVy _ _ | .ldVxKk _ _ | .addVxKk _ _ | .ldVxVy _ _
  | .orVxVy _ _ | .andVxVy _ _ | .xorVxVy _ _ | .addVxVy _ _ | .subVxVy _ _ | .shrVx _ _ | .subnVxVy _ _ | .shlVx _ _
  | .sneVxVy _ _ | .ldINnn _ | .jpV0Nnn _ | .rndVxKk _ _ | .ldVxDt _ | .ldVxK _ | .ldDtVx _ | .ldStVx _ | .addIVx _
  | .ldFVx _ => none

/-! ### Sprites -/

/-- A sprite of `n` bytes at `base`, drawn at column `x0` and row `y0`, has a 1 bit on the pixel of row `y` and
column `x`: bit `7 - c` of byte `r` is the pixel `c` columns right and `r` rows down, each coordinate wrapping by
itself (spec/43_display.md R96). -/
def SpriteCovers (mem : Memory) (base n x0 y0 : Nat) (y : Fin 32) (x : Fin 64) : Prop :=
  ∃ r c : Nat, r < n ∧ c < 8 ∧ (mem.read (base + r)).getLsbD (7 - c) = true ∧
    (y0 + r) % 32 = y.val ∧ (x0 + c) % 64 = x.val

end Sys2Proof.Machine
end

