-- ==== Sys2Proof/Certificates/Slice0/Obligations.lean ====
section
/-! DEFINITION. The statements for the provers, from the numbered rules of spec/. Each docstring names the rule and, where
a clause rests on a decision of the spec's own or on the model's, the log entry. -/

open Sys2Proof Sys2Proof.Machine

/-! ### Encoding -/

/-- One word of each format and family decodes to the instruction the spec's table gives it
(spec/95_test_vectors.md 2.1; the patterns are the spec's general knowledge, log 3). -/
def Obligations.SampleWordsDecode : Prop :=
  decode 0x00E0 = .ok .cls ∧ decode 0x00EE = .ok .ret ∧ decode 0x1FFF = .ok (.jpNnn 0xFFF) ∧
  decode 0x3AFF = .ok (.seVxKk 10 0xFF) ∧ decode 0x5AB0 = .ok (.seVxVy 10 11) ∧
  decode 0x8AB4 = .ok (.addVxVy 10 11) ∧ decode 0x8AB6 = .ok (.shrVx 10 11) ∧ decode 0xA123 = .ok (.ldINnn 0x123) ∧
  decode 0xC1F0 = .ok (.rndVxKk 1 0xF0) ∧ decode 0xD12F = .ok (.drwVxVyN 1 2 15) ∧ decode 0xE19E = .ok (.skpVx 1) ∧
  decode 0xF10A = .ok (.ldVxK 1) ∧ decode 0xF133 = .ok (.ldBVx 1) ∧ decode 0xF165 = .ok (.ldVxMemI 1) ∧
  decode 0x5AB1 = .error (.unknownInstruction 0x5AB1)

/-- Decoding the word of any instruction gives that instruction, with every operand at every value
(spec/30_encoding.md, sections 2 and 3; log 3). -/
def Obligations.DecodeInvertsEncode : Prop :=
  ∀ i : Instr, decode (encode i) = .ok i

/-- Every word that decodes is the word of its instruction (spec/30_encoding.md, sections 2 to 4; the patterns and field
places are log 3). That the word of a shift comes back with its unused `Y`, so that no two words give one instruction,
is the model's choice to let the constructors carry that `Y` (log 9): to the spec any `Y` is the same instruction. -/
def Obligations.EncodeInvertsDecode : Prop :=
  ∀ (w : Word) (i : Instr), decode w = .ok i → encode i = w

/-- The words that decode to nothing are exactly the classes of the table of spec/30_encoding.md section 4, and each is
rejected with the raw word. The patterns and masks are the spec's general knowledge (PRESUMED, log 3), the strictness
its decisions D2 and D3 (log 4). -/
def Obligations.UnknownWordsExactly : Prop :=
  ∀ w : Word, decode w = .error (.unknownInstruction w) ↔
    (w.toNat / 0x1000 = 0x0 ∧ w ≠ 0x00E0 ∧ w ≠ 0x00EE) ∨
    (w.toNat / 0x1000 = 0x5 ∧ w.toNat % 16 ≠ 0) ∨
    (w.toNat / 0x1000 = 0x8 ∧ w.toNat % 16 ∈ [0x8, 0x9, 0xA, 0xB, 0xC, 0xD, 0xF]) ∨
    (w.toNat / 0x1000 = 0x9 ∧ w.toNat % 16 ≠ 0) ∨
    (w.toNat / 0x1000 = 0xE ∧ w.toNat % 256 ∉ [0x9E, 0xA1]) ∨
    (w.toNat / 0x1000 = 0xF ∧ w.toNat % 256 ∉ [0x07, 0x0A, 0x15, 0x18, 0x1E, 0x29, 0x33, 0x55, 0x65])

/-- No word matches two rows of the decode table, so the order of the rows changes no result (spec/30_encoding.md
section 3, which infers it from its table). It is a fact of the patterns and masks, the spec's general knowledge
(PRESUMED, log 3). -/
def Obligations.AtMostOneRowMatches : Prop :=
  ∀ w : Word, (decodeTable.filter (rowMatches w)).length ≤ 1

/-! ### The step -/

/-- When the two bytes at `PC` decode to an instruction, the step is its execute phase, then the tick on its next
state; a fault of the execute phase is the fault of the step (spec/10_state.md section 8; that no tick runs on a
faulted step is decision D13, log 13). -/
def Obligations.StepRunsDecoded : Prop :=
  ∀ (s : State) (i : Instr), s.pc.toNat ≤ 0xFFE →
    decode (s.mem.read s.pc.toNat ++ s.mem.read (s.pc.toNat + 1)) = .ok i → i.wellFormed = true →
    (∀ t, exec i s = .next t → step s = .next
      { t with dt := if 0 < t.dt.toNat then t.dt - 1 else t.dt, st := if 0 < t.st.toNat then t.st - 1 else t.st }) ∧
    (∀ f, exec i s = .fault f → step s = .fault f)

/-- The fetch faults exactly above `0xFFE`, with `PC`, before any decode; a fetched word that decodes to nothing
faults with the raw word, the byte at the lower address in its high half (spec/10_state.md section 8,
spec/60_exceptions.md sections 1 and 2; the address fault is decision D4, log 5). -/
def Obligations.FetchAndDecodeFaults : Prop :=
  ∀ s : State,
    (0xFFE < s.pc.toNat → step s = .fault (.addressOverflow s.pc.toNat)) ∧
    (s.pc.toNat ≤ 0xFFE → ∀ w : Word,
      w.toNat = (s.mem.read s.pc.toNat).toNat * 256 + (s.mem.read (s.pc.toNat + 1)).toNat →
      (∀ i, decode w ≠ .ok i) → step s = .fault (.unknownInstruction w))

/-- Every completed step takes one from each timer that is not 0, after the instruction: a timer the instruction has
just written is decremented in the same step (spec/10_state.md R20, R28; spec/44_keys_timers.md section 2). -/
def Obligations.StepDecrementsTimers : Prop :=
  ∀ (s t : State) (i : Instr), s.fetchInstr = .ok i → step s = .next t →
    t.dt.toNat = (match i with | .ldDtVx x => s.v[x].toNat | _ => s.dt.toNat) - 1 ∧
    t.st.toNat = (match i with | .ldStVx x => s.v[x].toNat | _ => s.st.toNat) - 1

/-- A step faults on the same fault whatever the keys, the redraw flag and the random bytes are, the host sees the
state unchanged, and asking for the step again gives the same fault (spec/60_exceptions.md section 2; that every
kind is treated alike is decision D14, log 14). -/
def Obligations.FaultRepeats : Prop :=
  ∀ (s : State) (f : Fault), step s = .fault f →
    s.requestStep = (.fault f, s) ∧
    (∀ phase : Phase, phase ≠ .startFailed → ({ state := s, phase := phase } : Session).run [.step, .step] =
      ([.fault f, .fault f], { state := s, phase := .stepping })) ∧
    ∀ (key : Vector Bool 16) (redraw : Bool) (draws : Nat),
      step { s with key := key, needsRedraw := redraw, draws := draws } = .fault f

/-! ### Control transfer -/

/-- Where `pc` is after every instruction that completes, over the whole table: sequential, skip, jump, jump with
offset (at most `0x10FE`), call (after pushing the old `PC`), return, key wait; so it is after the step, and a faulted
step leaves it (spec/10_state.md section 4; the sums modulo 65536 are decision D26, log 23, the stall is level by
decision D12, log 12, `JP V0` is general knowledge, log 18, the faulted step decision D14, log 14). -/
def Obligations.PcAfterEveryInstruction : Prop :=
  (∀ (i : Instr) (s t : State), exec i s = .next t → t.pc = pcAfter s i) ∧
  (∀ (i : Instr) (s t : State), s.fetchInstr = .ok i → step s = .next t → t.pc = pcAfter s i) ∧
  (∀ (nnn : Address) (s t : State), exec (.callNnn nnn) s = .next t → t.stack.toList[s.sp.val]? = some s.pc) ∧
  (∀ (nnn : Address) (s : State), (pcAfter s (.jpV0Nnn nnn)).toNat = nnn.toNat + s.v[0].toNat ∧
    (pcAfter s (.jpV0Nnn nnn)).toNat ≤ 0x10FE) ∧
  (∀ (s : State) (f : Fault), step s = .fault f → s.requestStep.2.pc = s.pc)

/-- `JP nnn` and `JP V0, nnn` change `pc` and nothing else (spec/40_flow.md, the two rules; the second instruction is
the spec's general knowledge, log 18). -/
def Obligations.JumpsReachTarget : Prop :=
  ∀ (nnn : Address) (s : State),
    exec (.jpNnn nnn) s = .next { s with pc := BitVec.ofNat 16 nnn.toNat } ∧
    exec (.jpV0Nnn nnn) s = .next { s with pc := BitVec.ofNat 16 (nnn.toNat + s.v[0].toNat) }

/-- `CALL nnn` with room on the stack pushes its own address and jumps; nothing else changes (spec/40_flow.md, the rule
of CALL). -/
def Obligations.CallPushesOwnAddress : Prop :=
  ∀ (nnn : Address) (s : State) (room : s.sp.val < 16),
    ∃ t, exec (.callNnn nnn) s = .next t ∧ t.sp.val = s.sp.val + 1 ∧ t.stack = s.stack.set s.sp.val s.pc ∧
      t.pc.toNat = nnn.toNat ∧ t = { s with sp := t.sp, stack := t.stack, pc := t.pc }

/-- `RET` with an entry on the stack pops it and resumes two bytes after it; the entry keeps its value, and nothing else
changes (spec/40_flow.md, the rule of RET; the sum is modulo 65536, decision D26, log 23). -/
def Obligations.RetResumesAfterCall : Prop :=
  ∀ (s : State) (live : 0 < s.sp.val),
    ∃ t, exec .ret s = .next t ∧ t.sp.val = s.sp.val - 1 ∧
      t.pc.toNat = ((s.stack[s.sp.val - 1]'(by omega)).toNat + 2) % 65536 ∧ t = { s with sp := t.sp, pc := t.pc }

/-- `RET` faults exactly on the empty stack and `CALL` exactly on the full one, with the `PC` of the instruction
(spec/40_flow.md; decisions D5 and D6, log 6). -/
def Obligations.StackBoundsFault : Prop :=
  ∀ (nnn : Address) (s : State),
    (s.sp.val = 0 ↔ ∃ f, exec .ret s = .fault f) ∧ (s.sp.val = 0 → exec .ret s = .fault (.stackUnderflow s.pc)) ∧
    (s.sp.val = 16 ↔ ∃ f, exec (.callNnn nnn) s = .fault f) ∧
    (s.sp.val = 16 → exec (.callNnn nnn) s = .fault (.stackOverflow s.pc))

/-- The round trip of a subroutine: after a step that runs a `CALL`, any steps that never pop below the pushed entry,
and a step that runs `RET` at that depth, `PC` is two past the call and `SP` is what it was (spec/40_flow.md, the
round-trip law at its end, derived there from the rules of CALL and RET). -/
def Obligations.SubroutineRoundTrip : Prop :=
  ∀ (s t u r : State) (nnn : Address), s.fetchInstr = .ok (.callNnn nnn) → step s = .next t →
    StaysAtDepth (s.sp.val + 1) t u → u.sp.val = s.sp.val + 1 → u.fetchInstr = .ok .ret → step u = .next r →
    r.pc = s.pc + 2 ∧ r.sp = s.sp

/-- The four register skips change `pc` alone, by 4 when the condition holds and by 2 otherwise (spec/40_flow.md, the
rules of SE and SNE). -/
def Obligations.SkipsOnRegisterTest : Prop :=
  ∀ (x y : Reg) (kk : Byte) (s : State),
    exec (.seVxKk x kk) s = .next { s with pc := if s.v[x].toNat = kk.toNat then s.pc + 4 else s.pc + 2 } ∧
    exec (.sneVxKk x kk) s = .next { s with pc := if s.v[x].toNat = kk.toNat then s.pc + 2 else s.pc + 4 } ∧
    exec (.seVxVy x y) s = .next { s with pc := if s.v[x].toNat = s.v[y].toNat then s.pc + 4 else s.pc + 2 } ∧
    exec (.sneVxVy x y) s = .next { s with pc := if s.v[x].toNat = s.v[y].toNat then s.pc + 2 else s.pc + 4 }

/-- A jump to its own address with both timers at 0 is the idle end: the step leaves the whole state as it is
(spec/70_reset_and_hazards.md, the end of a run; that this is the end is the model's reading, log 29). -/
def Obligations.IdleLoopChangesNothing : Prop :=
  ∀ s : State, s.Idle → step s = .next s

/-! ### Arithmetic -/

/-- The loads and the immediate add write `V[X]` and move on; nothing else changes, `VF` included unless it is `V[X]`
(spec/41_alu.md section 2; ADD Vx, kk is the spec's general knowledge, log 18). -/
def Obligations.LoadsAndImmediateAdd : Prop :=
  ∀ (x y : Reg) (kk : Byte) (s : State),
    exec (.ldVxKk x kk) s = .next { s with v := s.v.set x kk, pc := s.pc + 2 } ∧
    exec (.ldVxVy x y) s = .next { s with v := s.v.set x s.v[y], pc := s.pc + 2 } ∧
    exec (.addVxKk x kk) s = .next
      { s with v := s.v.set x (BitVec.ofNat 8 ((s.v[x].toNat + kk.toNat) % 256)), pc := s.pc + 2 }

/-- OR, AND and XOR write `V[X]` bit by bit and leave every other register, `VF` included, as it was; a register with
itself is unchanged by OR and AND and cleared by XOR (spec/41_alu.md section 3). -/
def Obligations.LogicLeavesFlag : Prop :=
  ∀ (x y : Reg) (s : State),
    (∃ t, exec (.orVxVy x y) s = .next t ∧ t = { s with v := t.v, pc := s.pc + 2 } ∧
      (∀ b < 8, t.v[x].getLsbD b = (s.v[x].getLsbD b || s.v[y].getLsbD b)) ∧ (∀ r ≠ x, t.v[r] = s.v[r]) ∧
      (x = y → t.v = s.v)) ∧
    (∃ t, exec (.andVxVy x y) s = .next t ∧ t = { s with v := t.v, pc := s.pc + 2 } ∧
      (∀ b < 8, t.v[x].getLsbD b = (s.v[x].getLsbD b && s.v[y].getLsbD b)) ∧ (∀ r ≠ x, t.v[r] = s.v[r]) ∧
      (x = y → t.v = s.v)) ∧
    (∃ t, exec (.xorVxVy x y) s = .next t ∧ t = { s with v := t.v, pc := s.pc + 2 } ∧
      (∀ b < 8, t.v[x].getLsbD b = (s.v[x].getLsbD b ^^ s.v[y].getLsbD b)) ∧ (∀ r ≠ x, t.v[r] = s.v[r]) ∧
      (x = y → t.v[x] = 0))

/-- `ADD Vx, Vy`: the low byte of the exact sum, then the carry into `VF`, which is what remains with `X = 15`; nothing
else changes (spec/41_alu.md section 4; the order of the writes is decision D7, log 8). -/
def Obligations.AddSetsCarry : Prop :=
  ∀ (x y : Reg) (s : State), exec (.addVxVy x y) s = .next
    { s with
      v := (s.v.set x (BitVec.ofNat 8 ((s.v[x].toNat + s.v[y].toNat) % 256))).set 15
        (if 255 < s.v[x].toNat + s.v[y].toNat then 1 else 0)
      pc := s.pc + 2 }

/-- `SUB` and `SUBN`: the difference modulo 256 into `V[X]`, then `VF` 1 exactly when the minuend is strictly greater;
nothing else changes (spec/41_alu.md section 4; conflict C1, log 27; the order of the writes is decision D7, log 8). -/
def Obligations.SubtractionsSetStrictFlag : Prop :=
  ∀ (x y : Reg) (s : State),
    exec (.subVxVy x y) s = .next
      { s with
        v := (s.v.set x (BitVec.ofNat 8 ((s.v[x].toNat + 256 - s.v[y].toNat) % 256))).set 15
          (if s.v[x].toNat > s.v[y].toNat then 1 else 0)
        pc := s.pc + 2 } ∧
    exec (.subnVxVy x y) s = .next
      { s with
        v := (s.v.set x (BitVec.ofNat 8 ((s.v[y].toNat + 256 - s.v[x].toNat) % 256))).set 15
          (if s.v[y].toNat > s.v[x].toNat then 1 else 0)
        pc := s.pc + 2 }

/-- `SHR` and `SHL` shift `V[X]` in place by one, a zero entering, then put the bit shifted out into `VF`, whatever `Y`
is; nothing else changes (spec/41_alu.md section 5; the source register is decision D8, log 9; the order is decision D7, log 8). -/
def Obligations.ShiftsCatchBitOut : Prop :=
  ∀ (x y : Reg) (s : State),
    exec (.shrVx x y) s = .next
      { s with
        v := (s.v.set x (BitVec.ofNat 8 (s.v[x].toNat / 2))).set 15 (BitVec.ofNat 8 (s.v[x].toNat % 2))
        pc := s.pc + 2 } ∧
    exec (.shlVx x y) s = .next
      { s with
        v := (s.v.set x (BitVec.ofNat 8 (s.v[x].toNat * 2 % 256))).set 15 (BitVec.ofNat 8 (s.v[x].toNat / 128))
        pc := s.pc + 2 }

/-- `RND Vx, kk`: the free byte under the mask, one byte consumed, nothing else changed; bits outside the mask are 0
whatever the byte is (spec/41_alu.md section 6; the byte is a free value, decision D19, log 1). -/
def Obligations.RandomUnderMask : Prop :=
  ∀ (x : Reg) (kk : Byte) (s : State), ∃ t, exec (.rndVxKk x kk) s = .next t ∧
    t.v = s.v.set x (Config.randomByte s.draws &&& kk) ∧ (∀ b, kk.getLsbD b = false → t.v[x].getLsbD b = false) ∧
    t = { s with v := t.v, draws := s.draws + 1, pc := s.pc + 2 }

/-! ### Index register and memory -/

/-- `LD I, nnn` and `LD F, Vx` set `I` and nothing else; the font address is five times the whole register
(spec/42_index_memory.md section 2; log 18 for the first, decision D21, log 19, for the second). -/
def Obligations.IndexLoads : Prop :=
  ∀ (nnn : Address) (x : Reg) (s : State),
    exec (.ldINnn nnn) s = .next { s with i := BitVec.ofNat 16 nnn.toNat, pc := s.pc + 2 } ∧
    exec (.ldFVx x) s = .next { s with i := BitVec.ofNat 16 (s.v[x].toNat * 5), pc := s.pc + 2 }

/-- `ADD I, Vx`: all 16 bits of the sum, and `VF` 1 exactly when the exact sum is above `0xFFF`; nothing else changes
(spec/42_index_memory.md section 2; the 0 and the 16 bits are decision D9, log 10). -/
def Obligations.AddIndexSetsFlag : Prop :=
  ∀ (x : Reg) (s : State), exec (.addIVx x) s = .next
    { s with
      i := BitVec.ofNat 16 ((s.i.toNat + s.v[x].toNat) % 65536)
      v := s.v.set 15 (if 0xFFF < s.i.toNat + s.v[x].toNat then 1 else 0)
      pc := s.pc + 2 }

/-- `LD B, Vx` with its three cells in memory stores the decimal digits at `I`, `I + 1`, `I + 2`; every other byte reads
as before and nothing else changes (spec/42_index_memory.md section 3). -/
def Obligations.BcdStoresDigits : Prop :=
  ∀ (x : Reg) (s : State), s.i.toNat + 2 ≤ 0xFFF → ∃ t, exec (.ldBVx x) s = .next t ∧
    (t.mem.read s.i.toNat).toNat = s.v[x].toNat / 100 ∧
    (t.mem.read (s.i.toNat + 1)).toNat = s.v[x].toNat / 10 % 10 ∧
    (t.mem.read (s.i.toNat + 2)).toNat = s.v[x].toNat % 10 ∧
    (∀ a, a < s.i.toNat ∨ s.i.toNat + 2 < a → t.mem.read a = s.mem.read a) ∧
    t = { s with mem := t.mem, pc := s.pc + 2 }

/-- `LD [I], Vx` with its range in memory stores `V[0]` to `V[X]` at `I` to `I + X`; every other byte reads as before
and nothing else changes, `I` included (spec/42_index_memory.md section 3; decision D10, log 11). -/
def Obligations.DumpStoresRegisters : Prop :=
  ∀ (x : Reg) (s : State), s.i.toNat + x.val ≤ 0xFFF → ∃ t, exec (.ldMemIVx x) s = .next t ∧
    (∀ k : Reg, k.val ≤ x.val → t.mem.read (s.i.toNat + k.val) = s.v[k]) ∧
    (∀ a, a < s.i.toNat ∨ s.i.toNat + x.val < a → t.mem.read a = s.mem.read a) ∧
    t = { s with mem := t.mem, pc := s.pc + 2 }

/-- `LD Vx, [I]` with its range in memory loads `V[0]` to `V[X]` from `I` to `I + X`; the registers above and everything
else are unchanged, `I` included (spec/42_index_memory.md section 3; decision D10, log 11). -/
def Obligations.LoadFillsRegisters : Prop :=
  ∀ (x : Reg) (s : State), s.i.toNat + x.val ≤ 0xFFF → ∃ t, exec (.ldVxMemI x) s = .next t ∧
    (∀ k : Reg, k.val ≤ x.val → t.v[k] = s.mem.read (s.i.toNat + k.val)) ∧
    (∀ k : Reg, x.val < k.val → t.v[k] = s.v[k]) ∧ t = { s with v := t.v, pc := s.pc + 2 }

/-- A dump, then a load with the same `X` and `I` and the dumped cells untouched in between, gives back `V[0]` to `V[X]`
(spec/42_index_memory.md, the round trip at its end, derived there). -/
def Obligations.DumpThenLoadRestores : Prop :=
  ∀ (x : Reg) (s t u : State), exec (.ldMemIVx x) s = .next t → u.i = s.i →
    (∀ a, s.i.toNat ≤ a → a ≤ s.i.toNat + x.val → u.mem.read a = t.mem.read a) →
    ∃ r, exec (.ldVxMemI x) u = .next r ∧ ∀ k : Reg, k.val ≤ x.val → r.v[k] = s.v[k]

/-- The execute phase faults on exactly the causes of the fault table, with the `info` it records, and otherwise
completes: no instruction refuses (spec/60_exceptions.md sections 1 and 2; kinds 2 to 5 are decisions D4, D5, D6, D11:
logs 5, 6, 7). -/
def Obligations.ExecFaultsExactly : Prop :=
  ∀ (i : Instr) (s : State),
    match execFault s i with
    | some f => exec i s = .fault f
    | none => ∃ t, exec i s = .next t

/-- A store is seen by the next fetch: `LD [I], Vx` over the instruction that follows it is what the next step fetches
(spec/20_memory.md, instruction fetch is coherent with stores, derived there). -/
def Obligations.StoreIsFetchedAtOnce : Prop :=
  ∀ (x : Reg) (s : State), s.pc.toNat + 3 ≤ 0xFFF → s.i = s.pc + 2 → 1 ≤ x.val → s.i.toNat + x.val ≤ 0xFFF →
    ∃ t, exec (.ldMemIVx x) s = .next t ∧ t.fetchWord = .ok (s.v[0] ++ s.v[1])

/-! ### Frame buffer -/

/-- `CLS` unsets every pixel and sets `needsRedraw`; nothing else changes, `VF` included (spec/43_display.md, the rule of
CLS; that the flag is set on a blank screen too is decision D17, log 16). -/
def Obligations.ClearScreenUnsetsAll : Prop :=
  ∀ s : State, ∃ t, exec .cls s = .next t ∧ (∀ (y : Fin 32) (x : Fin 64), t.fb[y][x] = false) ∧
    t = { s with fb := t.fb, needsRedraw := true, pc := s.pc + 2 }

/-- `DRW Vx, Vy, n` with its sprite in memory toggles exactly the pixels under a 1 bit, each coordinate wrapping by
itself, sets `VF` to 1 exactly when one of them was set, and sets `needsRedraw`; every other register and everything
else are unchanged (spec/43_display.md, the rule of DRW; bit and row order are general knowledge, log 15; `n = 0` is
decision D17, log 16). -/
def Obligations.DrawXorsSprite : Prop :=
  ∀ (x y : Reg) (n : Height) (s : State), n.val = 0 ∨ s.i.toNat + n.val ≤ 0x1000 →
    ∃ t, exec (.drwVxVyN x y n) s = .next t ∧
      (∀ (py : Fin 32) (px : Fin 64),
        (SpriteCovers s.mem s.i.toNat n.val s.v[x].toNat s.v[y].toNat py px → t.fb[py][px] = !s.fb[py][px]) ∧
        (¬ SpriteCovers s.mem s.i.toNat n.val s.v[x].toNat s.v[y].toNat py px → t.fb[py][px] = s.fb[py][px])) ∧
      ((∃ py px, SpriteCovers s.mem s.i.toNat n.val s.v[x].toNat s.v[y].toNat py px ∧ s.fb[py][px] = true) →
        t.v = s.v.set 15 1) ∧
      ((∀ py px, SpriteCovers s.mem s.i.toNat n.val s.v[x].toNat s.v[y].toNat py px → s.fb[py][px] = false) →
        t.v = s.v.set 15 0) ∧
      t = { s with fb := t.fb, v := t.v, needsRedraw := true, pc := s.pc + 2 }

/-- Drawing is an involution: the same draw again restores the frame buffer, and its `VF` is 1 exactly when the first
draw turned some pixel on (spec/43_display.md, drawing is an involution, derived there). Neither `X` nor `Y` is 15,
since the first draw overwrites `VF`. -/
def Obligations.DrawTwiceRestores : Prop :=
  ∀ (x y : Reg) (n : Height) (s t : State), x ≠ 15 → y ≠ 15 → exec (.drwVxVyN x y n) s = .next t →
    ∃ u, exec (.drwVxVyN x y n) t = .next u ∧ u.fb = s.fb ∧
      u.v[15] = if ∃ (py : Fin 32) (px : Fin 64), s.fb[py][px] = false ∧ t.fb[py][px] = true then 1 else 0

/-- No instruction but `CLS` and `DRW` writes the frame buffer and none but `DRW` depends on it, and no instruction clears
`needsRedraw`: the core clears it at `initialize` and at the host's own action only (spec/43_display.md R98; that `CLS`
and `DRW` do write and `DRW` does read is in `ClearScreenUnsetsAll` and `DrawXorsSprite`). -/
def Obligations.FrameBufferAccess : Prop :=
  (∀ (i : Instr) (s t : State), exec i s = .next t → i ≠ .cls → (∀ x y n, i ≠ .drwVxVyN x y n) → t.fb = s.fb) ∧
  (∀ (i : Instr) (s : State) (fb : Frame), (∀ x y n, i ≠ .drwVxVyN x y n) →
    exec i { s with fb := fb } = mapNext (fun t => if i = .cls then t else { t with fb := fb }) (exec i s)) ∧
  (∀ (s t : State), s.needsRedraw = true → step s = .next t → t.needsRedraw = true) ∧
  (∀ s : State, s.snapshot = s.fb ∧ s.clearRedraw = { s with needsRedraw := false } ∧ s.restart.needsRedraw = false)

/-! ### Keys and timers -/

/-- `SKP` and `SKNP` with a key index in range skip on the level of that key and change `pc` alone
(spec/44_keys_timers.md section 1). -/
def Obligations.SkipsOnKey : Prop :=
  ∀ (x : Reg) (k : Key) (s : State), s.v[x].toNat = k.val →
    exec (.skpVx x) s = .next { s with pc := if s.key[k] = true then s.pc + 4 else s.pc + 2 } ∧
    exec (.sknpVx x) s = .next { s with pc := if s.key[k] = true then s.pc + 2 else s.pc + 4 }

/-- `LD Vx, K` with no key down is a completed step of no effect at all before the tick, and with a key down stores the
least one and moves on (spec/44_keys_timers.md section 1; decisions D12 and D13, logs 12 and 13). -/
def Obligations.KeyWaitStallsOrStores : Prop :=
  ∀ (x : Reg) (s : State),
    ((∀ k : Key, s.key[k] = false) → exec (.ldVxK x) s = .next s) ∧
    (∀ k : Key, s.key[k] = true → (∀ j : Key, j < k → s.key[j] = false) →
      exec (.ldVxK x) s = .next { s with v := s.v.set x (BitVec.ofNat 8 k.val), pc := s.pc + 2 })

/-- The three timer instructions move a byte between `V[X]` and a timer and change nothing else, before the tick
(spec/44_keys_timers.md section 2). -/
def Obligations.TimerMoves : Prop :=
  ∀ (x : Reg) (s : State),
    exec (.ldVxDt x) s = .next { s with v := s.v.set x s.dt, pc := s.pc + 2 } ∧
    exec (.ldDtVx x) s = .next { s with dt := s.v[x], pc := s.pc + 2 } ∧
    exec (.ldStVx x) s = .next { s with st := s.v[x], pc := s.pc + 2 }

/-- A timer set to `v` by one step is `v - 1` when that step ends and one less after every further completed step that does
not set it again, down to 0; so the sound signal goes off exactly with the `v`-th step, the one that set it counted
(spec/60_exceptions.md section 5, derived there from the tick). -/
def Obligations.TimersRunDown : Prop :=
  ∀ (x : Reg) (n : Nat) (s t u : State), step s = .next t →
    (s.fetchInstr = .ok (.ldDtVx x) → StepsWithout (fun i => ∃ y, i = .ldDtVx y) n t u →
      u.dt.toNat = s.v[x].toNat - (n + 1)) ∧
    (s.fetchInstr = .ok (.ldStVx x) → StepsWithout (fun i => ∃ y, i = .ldStVx y) n t u →
      u.st.toNat = s.v[x].toNat - (n + 1) ∧ (u.soundTimerActive = true ↔ n + 1 < s.v[x].toNat))

/-- No instruction writes a key, only `SKP`, `SKNP` and `LD Vx, K` read one, and each of them does (`LD Vx, K` moves on
with a key down and stays with all keys up), the host's `setKey` writes exactly the key it names, and all keys are up
at reset (spec/10_state.md R22). -/
def Obligations.KeysComeFromHost : Prop :=
  (∀ (s t : State), step s = .next t → t.key = s.key) ∧
  (∀ (i : Instr) (s : State) (key : Vector Bool 16), (∀ x, i ≠ .skpVx x ∧ i ≠ .sknpVx x ∧ i ≠ .ldVxK x) →
    exec i { s with key := key } = mapNext (fun t => { t with key := key }) (exec i s)) ∧
  (∀ (x : Reg) (k : Key) (s t u : State), s.v[x].toNat = k.val →
    (exec (.skpVx x) (s.setKey k true) = .next t → exec (.skpVx x) (s.setKey k false) = .next u → t.pc = u.pc + 2) ∧
    (exec (.sknpVx x) (s.setKey k true) = .next t → exec (.sknpVx x) (s.setKey k false) = .next u → t.pc + 2 = u.pc)) ∧
  (∀ (x : Reg) (k : Key) (s t : State), exec (.ldVxK x) (s.setKey k true) = .next t → t.pc = s.pc + 2) ∧
  (∀ (x : Reg) (s t : State), (∀ k : Key, s.key[k] = false) → exec (.ldVxK x) s = .next t → t.pc = s.pc) ∧
  (∀ (s : State) (k j : Key) (down : Bool), (s.setKey k down).key[j] = if j = k then down else s.key[j]) ∧
  (∀ k : Key, State.reset.key[k] = false)

/-- The delay timer is read by `LD Vx, DT` only and written by `LD DT, Vx` only, the sound timer is written by
`LD ST, Vx` only and read by no instruction; the host sees whether it is nonzero; a completed step takes one from each
that is nonzero; both are 0 at reset (spec/10_state.md R20). -/
def Obligations.TimerAccess : Prop :=
  (∀ (x : Reg) (s t : State), (exec (.ldVxDt x) s = .next t → t.v[x] = s.dt) ∧
    (exec (.ldDtVx x) s = .next t → t.dt = s.v[x]) ∧ (exec (.ldStVx x) s = .next t → t.st = s.v[x])) ∧
  (∀ (i : Instr) (s t : State), exec i s = .next t →
    ((∀ x, i ≠ .ldDtVx x) → t.dt = s.dt) ∧ ((∀ x, i ≠ .ldStVx x) → t.st = s.st)) ∧
  (∀ (i : Instr) (s : State) (b : Byte), (∀ x, i ≠ .ldVxDt x) → (∀ x, i ≠ .ldDtVx x) →
    exec i { s with dt := b } = mapNext (fun t => { t with dt := b }) (exec i s)) ∧
  (∀ (x : Reg) (s : State) (b : Byte), exec (.ldDtVx x) { s with dt := b } = exec (.ldDtVx x) s) ∧
  (∀ (i : Instr) (s : State) (b : Byte), (∀ x, i ≠ .ldStVx x) →
    exec i { s with st := b } = mapNext (fun t => { t with st := b }) (exec i s)) ∧
  (∀ (x : Reg) (s : State) (b : Byte), exec (.ldStVx x) { s with st := b } = exec (.ldStVx x) s) ∧
  (∀ s : State, s.soundTimerActive = true ↔ s.st.toNat ≠ 0) ∧
  (∀ (i : Instr) (s t : State), s.fetchInstr = .ok i → exec i s = .next t →
    ∃ u, step s = .next u ∧ u.dt.toNat = t.dt.toNat - 1 ∧ u.st.toNat = t.st.toNat - 1) ∧
  State.reset.dt = 0 ∧ State.reset.st = 0

/-! ### Whole-machine rules -/

/-- A register changes only if the instruction names it as a destination or, for `VF`, is one of the seven flag
writers, and those leave exactly 0 or 1 in `VF` (spec/10_state.md section 3; decision D7, log 8, for `X = 15`). -/
def Obligations.RegisterWriters : Prop :=
  ∀ (i : Instr) (s t : State), exec i s = .next t →
    (∀ r : Reg, isDestination r i = false → ¬ (r = 15 ∧ writesFlag i = true) → t.v[r] = s.v[r]) ∧
    (writesFlag i = true → t.v[15] = 0 ∨ t.v[15] = 1)

/-- `I` changes only under its three instructions, the stack and `SP` only under `CALL` and `RET`, memory only under
`LD B` and `LD [I]`, and a random byte is consumed by `RND` only (spec/97_test_programs.md section 4; spec/10_state.md
section 5; the counter of random bytes is the model's, log 1). -/
def Obligations.OnlyTheirInstructionsWrite : Prop :=
  ∀ (i : Instr) (s t : State), exec i s = .next t →
    ((∀ nnn, i ≠ .ldINnn nnn) → (∀ x, i ≠ .addIVx x ∧ i ≠ .ldFVx x) → t.i = s.i) ∧
    ((∀ nnn, i ≠ .callNnn nnn) → t.stack = s.stack ∧ (i ≠ .ret → t.sp = s.sp)) ∧
    ((∀ x, i ≠ .ldBVx x ∧ i ≠ .ldMemIVx x) → t.mem = s.mem ∧ ∀ a, t.mem.read a = s.mem.read a) ∧
    ((∀ x kk, i ≠ .rndVxKk x kk) → t.draws = s.draws)

/-- No instruction's result depends on `needsRedraw`: with another value of it every instruction does the same to
everything else, and leaves the flag set if it draws and as it was if not (spec/60_exceptions.md section 6; that
`CLS` and `DRW` always set it is decision D17, log 16). -/
def Obligations.RedrawFlagUnread : Prop :=
  ∀ (i : Instr) (s : State) (b : Bool), exec i { s with needsRedraw := b } =
    mapNext (fun t => { t with
      needsRedraw := match i with
        | .cls => true
        | .drwVxVyN _ _ _ => true
        | _ => b }) (exec i s)

/-- The invariant holds after reset (the reset values of spec/10_state.md section 9; the canonical form of memory is the
model's, log 26). -/
def Obligations.ResetHasInvariant : Prop := State.reset.Inv

/-- Every step keeps the invariant, from any state that has it: memory stays canonical and inside `0x000` to `0xFFF`,
every stack entry stays a fetchable address, and `PC` stays at most `0x10FE` (spec/40_flow.md: "so in practice
`stack[SP] <= 0xFFE`"; derived from the fetch rule and the rules of CALL, RET and JP V0; log 26 for the canonical
form). -/
def Obligations.StepKeepsInvariant : Prop :=
  ∀ s t : State, s.Inv → step s = .next t → t.Inv

/-- So does every action of the host, and a session that starts at reset meets it throughout whatever the host does
(spec/10_state.md sections 7 and 8; derived). The canonical form in the invariant is the model's (DESIGN CHOICE,
log 26), and so are host actions as operations between steps (DESIGN CHOICE, log 22) and the turning away of one that
is not allowed (DESIGN CHOICE, log 31). -/
def Obligations.SessionKeepsInvariant : Prop :=
  (∀ (h : Session) (a : HostAction), h.state.Inv → (h.act a).2.state.Inv) ∧
  (∀ actions : List HostAction, (Session.start.run actions).2.state.Inv)

/-- The state after reset: every register, timer, key and pixel zero, `PC = 0x200`, the stack empty, the font in its
80 cells and zeros everywhere else (spec/10_state.md section 9, spec/70_reset_and_hazards.md section 1; the extent of
"zeroes all state" is decision D30, log 24; the font bytes are a parameter, log 2). -/
def Obligations.ResetValues : Prop :=
  (∀ r : Reg, State.reset.v[r] = 0) ∧ State.reset.i = 0 ∧ State.reset.pc = 0x200 ∧ State.reset.sp = 0 ∧
  (∀ k : Fin 16, State.reset.stack[k] = 0) ∧ State.reset.dt = 0 ∧ State.reset.st = 0 ∧
  (∀ k : Key, State.reset.key[k] = false) ∧ (∀ (y : Fin 32) (x : Fin 64), State.reset.fb[y][x] = false) ∧
  State.reset.needsRedraw = false ∧ Config.font.length = 80 ∧
  (∀ a, a < 80 → some (State.reset.mem.read a) = Config.font[a]?) ∧ (∀ a, 80 ≤ a → State.reset.mem.read a = 0)

/-! ### Memory and host -/

/-- A stored byte is read back, every other byte is as before, and the canonical form is kept; two memories in that form
that read alike are the same data (spec/20_memory.md sections 3 and 7; the form is the model's, log 26). -/
def Obligations.MemoryReadsLastWrite : Prop :=
  (∀ (m : Memory) (a b : Nat) (v : Byte), (m.write a v).read b = if b = a then v else m.read b) ∧
  (∀ (m : Memory) (a : Nat) (v : Byte), m.wf = true → a < 0x1000 → (m.write a v).wf = true) ∧
  (∀ m m' : Memory, m.wf = true → m'.wf = true → (∀ a, m.read a = m'.read a) → m = m')

/-- `load` refuses an image above 3584 bytes whole and otherwise writes exactly the cells `0x200` to
`0x200 + len(image) - 1`, in order, and nothing else of the state (spec/20_memory.md R41). That the refusal is reported
to the host and fatal to the start of its session is spec/60_exceptions.md R128; the session and its phase
`startFailed` are the model's (DESIGN CHOICE, log 22, and DEDUCED, log 31). -/
def Obligations.LoadCopiesImage : Prop :=
  ∀ (s : State) (image : List Byte),
    (4096 - 0x200 < image.length →
      s.load image = .error .programTooLarge ∧
      ({ state := s, phase := .initialized } : Session).act (.load image) =
        (.loadFailed .programTooLarge, { state := s, phase := .startFailed })) ∧
    (image.length ≤ 4096 - 0x200 → ∃ t, s.load image = .ok t ∧
      (∀ k (h : k < image.length), t.mem.read (0x200 + k) = image[k]) ∧
      (∀ a, a < 0x200 ∨ 0x200 + image.length ≤ a → t.mem.read a = s.mem.read a) ∧ t = { s with mem := t.mem })

/-- `setKey` sets the level of the key it names and nothing else; the core keeps only the last value of each key, calls
for different keys do not disturb each other, and only `initialize` and `setKey` change a key
(spec/60_exceptions.md R123). -/
def Obligations.SetKeyKeepsLastValue : Prop :=
  (∀ (s : State) (k : Key) (down : Bool), s.setKey k down = { s with key := (s.setKey k down).key } ∧
    (s.setKey k down).key[k] = down ∧ ∀ j : Key, j ≠ k → (s.setKey k down).key[j] = s.key[j]) ∧
  (∀ (s : State) (k : Key) (a b : Bool), (s.setKey k a).setKey k b = s.setKey k b) ∧
  (∀ (s : State) (k j : Key) (a b : Bool), k ≠ j → (s.setKey k a).setKey j b = (s.setKey j b).setKey k a) ∧
  (∀ (h : Session) (a : HostAction), a ≠ .restart → (∀ k down, a ≠ .setKey k down) →
    (h.act a).2.state.key = h.state.key) ∧
  (∀ (s : State) (k : Key), s.restart.key[k] = false)

/-- `initialize` gives the reset state whatever the state was, apart from the host's random source, which goes on
(spec/70_reset_and_hazards.md section 1; decision D30 and the model's choice for the source, log 24). -/
def Obligations.RestartForgetsState : Prop :=
  ∀ s : State, s.restart = { State.reset with draws := s.draws } ∧ s.restart.restart = s.restart ∧
    ∀ image : List Byte, image.length ≤ 3584 → ∀ t, s.load image = .ok t → t.restart = s.restart

/-- When a host action is carried out: `initialize` always; `load` exactly when neither a load nor a step has been
requested since the last `initialize`; the others always but in a session whose start failed. An action that is not
allowed changes nothing (spec/60_exceptions.md R124; once per `initialize` is decision D29; the session and its phases
are the model's, DESIGN CHOICE, log 22; that nothing but `initialize` is allowed after a failed load is inferred from
R128, DEDUCED, log 31; the answer `notAllowed` is the model's, DESIGN CHOICE, log 31). -/
def Obligations.HostActionsWhenAllowed : Prop :=
  (∀ (h : Session) (actions : List HostAction) (image : List Byte), .restart ∉ actions →
    (((h.act .restart).2.run actions).2.phase.allows (.load image) = true ↔
      ∀ a ∈ actions, a ≠ .step ∧ ∀ other, a ≠ .load other)) ∧
  (∀ (h : Session) (a : HostAction), h.phase.allows a = false → h.act a = (.notAllowed, h)) ∧
  (∀ (h : Session) (image : List Byte), h.phase = .initialized → image.length ≤ 3584 →
    ∃ t, h.state.load image = .ok t ∧ h.act (.load image) = (.done, { state := t, phase := .loaded })) ∧
  (∀ h : Session, h.phase ≠ .startFailed →
    h.act .step = (h.state.requestStep.1, { state := h.state.requestStep.2, phase := .stepping }) ∧
    h.act .clearRedraw = (.done, { h with state := h.state.clearRedraw }) ∧
    ∀ k down, h.act (.setKey k down) = (.done, { h with state := h.state.setKey k down })) ∧
  (∀ h : Session, h.act .restart = (.done, { state := h.state.restart, phase := .initialized }))

/-- The only way out of a faulted state is `initialize`: once a step has faulted, whatever else the host does, every
further step gives the same fault, nothing but the keys and `needsRedraw` changes, and no load is carried out; then
`initialize` gives the reset state (spec/60_exceptions.md R113, derived there and decision D31, log 14; the answer
`notAllowed` is the model's, log 31). -/
def Obligations.FaultLeftByRestartOnly : Prop :=
  ∀ (h : Session) (f : Fault) (actions : List HostAction), (h.act .step).1 = .fault f → .restart ∉ actions →
    (h.act .step).2.state = h.state ∧
    (∃ (key : Vector Bool 16) (redraw : Bool), ((h.act .step).2.run actions).2 =
      { state := { h.state with key := key, needsRedraw := redraw }, phase := .stepping }) ∧
    (((h.act .step).2.run actions).2.act .step).1 = .fault f ∧
    (∀ image, (((h.act .step).2.run actions).2.act (.load image)).1 = .notAllowed) ∧
    (((h.act .step).2.run actions).2.act .restart).2 = { state := h.state.restart, phase := .initialized }

/-- A load that fails is fatal to the start of the session: it is reported and memory and all of the state stay as they
were (spec/60_exceptions.md R128). That until the next `initialize` no host action at all is carried out, neither a
load nor a step, `setKey` or clearing of `needsRedraw`, is inferred from R128's "fatal to session start" and "no retry"
(DEDUCED, log 31; R124 by its letter allows the last three), and so is that `initialize` starts a new session. The
answer `notAllowed` (DESIGN CHOICE, log 31) and the phase `startFailed` (DESIGN CHOICE, log 22) are the model's. -/
def Obligations.FailedLoadEndsSession : Prop :=
  ∀ (h : Session) (image : List Byte) (actions : List HostAction), h.phase = .initialized → 3584 < image.length →
    .restart ∉ actions →
    h.act (.load image) = (.loadFailed .programTooLarge, { h with phase := .startFailed }) ∧
    (h.act (.load image)).2.run actions =
      (actions.map fun _ => Reply.notAllowed, { h with phase := .startFailed })
end

