-- ==== Sys2Proof/Laws/Decode.lean ====
section
/-! SUPPORT. What the masks, the fields and the encoder's words are as numbers, that the rows of the decode table are
well formed and pairwise disjoint (spec/30_encoding.md R49), and that a word therefore decodes by whichever row it
matches. -/

namespace Sys2Proof

/-! ### Concatenation, masks and fields as numbers -/

theorem toNat_append_eq {m n : Nat} (x : BitVec m) (y : BitVec n) : (x ++ y).toNat = x.toNat * 2 ^ n + y.toNat := by
  rw [BitVec.toNat_append, ← Nat.shiftLeft_add_eq_or_of_lt y.isLt, Nat.shiftLeft_eq]

theorem and_F000_toNat (w : Word) : (w &&& 0xF000#16).toNat = w.toNat / 4096 * 4096 := by
  have h : w &&& 0xF000#16 = (w >>> 12) <<< 12 := by
    apply BitVec.eq_of_getLsbD_eq
    intro i hi
    interval_cases i <;> simp
  rw [h]
  simp only [BitVec.toNat_shiftLeft, BitVec.toNat_ushiftRight, Nat.shiftRight_eq_div_pow, Nat.shiftLeft_eq]
  omega

theorem and_low_toNat (w : Word) (k : Nat) (hk : k ≤ 16) :
    (w &&& BitVec.ofNat 16 (2 ^ k - 1)).toNat = w.toNat % 2 ^ k := by
  have hle : 2 ^ k ≤ 2 ^ 16 := Nat.pow_le_pow_right (by omega) hk
  have hpos : 0 < 2 ^ k := Nat.two_pow_pos k
  rw [BitVec.toNat_and, BitVec.toNat_ofNat, Nat.mod_eq_of_lt (by omega), Nat.and_two_pow_sub_one_eq_mod]

theorem and_F00F_toNat (w : Word) : (w &&& 0xF00F#16).toNat = w.toNat / 4096 * 4096 + w.toNat % 16 := by
  have h : w &&& 0xF00F#16 = (w &&& 0xF000#16) + (w &&& 0xF#16) := by
    rw [BitVec.add_eq_or_of_and_eq_zero] <;>
      (apply BitVec.eq_of_getLsbD_eq; intro i hi; interval_cases i <;> simp)
  have h2 : (w &&& 0xF#16).toNat = w.toNat % 16 := and_low_toNat w 4 (by omega)
  rw [h, BitVec.toNat_add, and_F000_toNat, h2]
  omega

theorem and_F0FF_toNat (w : Word) : (w &&& 0xF0FF#16).toNat = w.toNat / 4096 * 4096 + w.toNat % 256 := by
  have h : w &&& 0xF0FF#16 = (w &&& 0xF000#16) + (w &&& 0xFF#16) := by
    rw [BitVec.add_eq_or_of_and_eq_zero] <;>
      (apply BitVec.eq_of_getLsbD_eq; intro i hi; interval_cases i <;> simp)
  have h2 : (w &&& 0xFF#16).toNat = w.toNat % 256 := and_low_toNat w 8 (by omega)
  rw [h, BitVec.toNat_add, and_F000_toNat, h2]
  omega

theorem and_FFFF (w : Word) : w &&& 0xFFFF#16 = w :=
  BitVec.and_allOnes (x := w)

theorem fieldX_val (w : Word) : (fieldX w).val = w.toNat / 256 % 16 := by
  simp [fieldX, Nat.shiftRight_eq_div_pow]

theorem fieldY_val (w : Word) : (fieldY w).val = w.toNat / 16 % 16 := by
  simp [fieldY, Nat.shiftRight_eq_div_pow]

theorem fieldN_val (w : Word) : (fieldN w).val = w.toNat % 16 := by
  simp [fieldN]

theorem fieldKK_toNat (w : Word) : (fieldKK w).toNat = w.toNat % 256 := by
  simp [fieldKK, BitVec.extractLsb'_toNat]

theorem fieldNNN_toNat (w : Word) : (fieldNNN w).toNat = w.toNat % 4096 := by
  simp [fieldNNN, BitVec.extractLsb'_toNat]

/-- The big-endian word as a number (spec/20_memory.md R32). -/
theorem wordOfBytes_toNat (high low : Byte) : (wordOfBytes high low).toNat = high.toNat * 256 + low.toNat :=
  toNat_append_eq high low

/-- A word is its two bytes. -/
theorem wordOfBytes_bytes (w : Word) : wordOfBytes (highByte w) (lowByte w) = w := by
  apply BitVec.eq_of_toNat_eq
  rw [wordOfBytes_toNat]
  simp only [highByte, lowByte, BitVec.extractLsb'_toNat, Nat.shiftRight_eq_div_pow]
  have := w.isLt
  omega

theorem wordA_toNat (op : BitVec 4) (nnn : Address) : (wordA op nnn).toNat = op.toNat * 4096 + nnn.toNat :=
  toNat_append_eq op nnn

theorem wordXK_toNat (op : BitVec 4) (x : Reg) (kk : Byte) :
    (wordXK op x kk).toNat = op.toNat * 4096 + x.val * 256 + kk.toNat := by
  have h : (wordXK op x kk).toNat = (op ++ nibble x).toNat * 2 ^ 8 + kk.toNat := toNat_append_eq _ kk
  have h2 : (op ++ nibble x).toNat = op.toNat * 2 ^ 4 + x.val := toNat_append_eq op (nibble x)
  rw [h, h2]
  ring

theorem wordXYN_toNat (op : BitVec 4) (x y : Reg) (low : BitVec 4) :
    (wordXYN op x y low).toNat = op.toNat * 4096 + x.val * 256 + y.val * 16 + low.toNat := by
  have h : (wordXYN op x y low).toNat = (op ++ nibble x ++ nibble y).toNat * 2 ^ 4 + low.toNat :=
    toNat_append_eq _ low
  have h2 : (op ++ nibble x ++ nibble y).toNat = (op ++ nibble x).toNat * 2 ^ 4 + y.val :=
    toNat_append_eq _ (nibble y)
  have h3 : (op ++ nibble x).toNat = op.toNat * 2 ^ 4 + x.val := toNat_append_eq op (nibble x)
  rw [h, h2, h3]
  ring

/-! ### When a word matches a row -/

theorem rowMatches_rowE (w p : Word) (i : Instr) : rowMatches w (rowE p i) = true ↔ w.toNat = p.toNat := by
  simp [rowMatches, rowE, and_FFFF, ← BitVec.toNat_inj]

theorem rowMatches_rowA (w p : Word) (f : Address → Instr) :
    rowMatches w (rowA p f) = true ↔ w.toNat / 4096 * 4096 = p.toNat := by
  simp [rowMatches, rowA, ← BitVec.toNat_inj, ← and_F000_toNat]

theorem rowMatches_rowXK (w p : Word) (f : Reg → Byte → Instr) :
    rowMatches w (rowXK p f) = true ↔ w.toNat / 4096 * 4096 = p.toNat := by
  simp [rowMatches, rowXK, ← BitVec.toNat_inj, ← and_F000_toNat]

theorem rowMatches_rowXYN (w p : Word) (f : Reg → Reg → Height → Instr) :
    rowMatches w (rowXYN p f) = true ↔ w.toNat / 4096 * 4096 = p.toNat := by
  simp [rowMatches, rowXYN, ← BitVec.toNat_inj, ← and_F000_toNat]

theorem rowMatches_rowXY (w p : Word) (f : Reg → Reg → Instr) :
    rowMatches w (rowXY p f) = true ↔ w.toNat / 4096 * 4096 + w.toNat % 16 = p.toNat := by
  simp [rowMatches, rowXY, ← BitVec.toNat_inj, ← and_F00F_toNat]

theorem rowMatches_rowX (w p : Word) (f : Reg → Instr) :
    rowMatches w (rowX p f) = true ↔ w.toNat / 4096 * 4096 + w.toNat % 256 = p.toNat := by
  simp [rowMatches, rowX, ← BitVec.toNat_inj, ← and_F0FF_toNat]

/-! ### The table -/

/-- Every row has a mask of the document's families and a pattern inside it (spec/30_encoding.md R48). -/
theorem decodeTable_wellFormed : decodeTable.all DecodeRow.wellFormed = true := by decide

/-- The rows are pairwise disjoint (spec/30_encoding.md R49). -/
theorem decodeTable_disjoint : decodeTable.Pairwise fun r q => r.disjoint q = true := by decide

/-- A word matches at most one of two disjoint rows. -/
theorem rowMatches_of_disjoint {w : Word} {r q : DecodeRow} (d : r.disjoint q = true) (h : rowMatches w r = true) :
    rowMatches w q = false := by
  simp only [rowMatches, DecodeRow.disjoint, beq_iff_eq, bne_iff_ne, beq_eq_false_iff_ne] at *
  intro hq
  apply d
  rw [← h, ← hq, BitVec.and_assoc, BitVec.and_assoc, BitVec.and_comm r.mask]

theorem find?_of_pairwise {α : Type} {R : α → α → Prop} {p : α → Bool} {l : List α} (hl : l.Pairwise R)
    (excl : ∀ a b, R a b → p a = true → p b = false) {a : α} (ha : a ∈ l) (hp : p a = true) : l.find? p = some a := by
  induction l with
  | nil => cases ha
  | cons b l ih =>
    rw [List.pairwise_cons] at hl
    rcases List.mem_cons.mp ha with rfl | hal
    · simp [List.find?, hp]
    · have hb : p b = false := by
        by_contra hb
        simp only [Bool.not_eq_false] at hb
        simp [excl b a (hl.1 a hal) hb] at hp
      simp [List.find?, hb, ih hl.2 hal]

/-- A word decodes by the row it matches, wherever in the table the row stands. -/
theorem decode_of_matches {w : Word} {r : DecodeRow} (hr : r ∈ decodeTable) (h : rowMatches w r = true) :
    decode w = .ok (r.build w) := by
  unfold decode
  rw [find?_of_pairwise decodeTable_disjoint (fun _ _ d => rowMatches_of_disjoint d) hr h]

/-- A word that decodes matches a row of the table, and is the row's instruction. -/
theorem matches_of_decode {w : Word} {i : Instr} (h : decode w = .ok i) :
    ∃ r ∈ decodeTable, rowMatches w r = true ∧ i = r.build w := by
  unfold decode at h
  split at h
  · next r hr => exact ⟨r, List.mem_of_find?_eq_some hr, List.find?_some hr, (Except.ok.inj h).symm⟩
  · cases h

/-- A word is rejected exactly when it matches no row, and then with itself. -/
theorem decode_error_iff {w : Word} {e : DecodeError} :
    decode w = .error e ↔ e = .unknownInstruction w ∧ ∀ r ∈ decodeTable, ¬ rowMatches w r = true := by
  unfold decode
  constructor
  · intro h
    split at h
    · cases h
    · next hn => exact ⟨(Except.error.inj h).symm, List.find?_eq_none.mp hn⟩
  · rintro ⟨rfl, h⟩
    have hn : decodeTable.find? (rowMatches w) = none := List.find?_eq_none.mpr h
    rw [hn]

end Sys2Proof
end

