-- ==== Sys2Proof/Laws/Display.lean ====
section
/-! SUPPORT. What the drawing loop does, whatever its order: a covered pixel is toggled once, every other pixel stays,
and the collision is whether a covered pixel was set (spec/43_display.md R96). -/

namespace Sys2Proof.Machine

theorem Frame.pixel_toggle (fb : Frame) (y py : Fin 32) (x px : Fin 64) :
    Frame.pixel (Frame.toggle fb y x) py px =
      if py = y ∧ px = x then !Frame.pixel fb py px else Frame.pixel fb py px := by
  unfold Frame.pixel Frame.toggle
  by_cases hy : py = y
  · subst hy
    by_cases hx : px = x
    · subst hx; simp
    · have : (x : Nat) ≠ px := fun h => hx (Fin.ext h.symm)
      simp [hx, this]
  · have : (y : Nat) ≠ py := fun h => hy (Fin.ext h.symm)
    simp [hy, this]

/-- Two frame buffers with the same pixels are the same. -/
theorem Frame.ext_pixel {f g : Frame} (h : ∀ y x, Frame.pixel f y x = Frame.pixel g y x) : f = g := by
  apply Vector.ext
  intro y hy
  apply Vector.ext
  intro x hx
  exact h ⟨y, hy⟩ ⟨x, hx⟩

/-- A 1 bit of the low `n` bits of a sprite row falls on the column. -/
def ColumnCovered (x0 : Nat) (b : Byte) (n : Nat) (px : Fin 64) : Prop :=
  ∃ k < n, b.getLsbD k = true ∧ (x0 + (7 - k)) % 64 = px.val

theorem columnCovered_succ {x0 : Nat} {b : Byte} {n : Nat} {px : Fin 64} :
    ColumnCovered x0 b (n + 1) px ↔
      ColumnCovered x0 b n px ∨ (b.getLsbD n = true ∧ px = Fin.ofNat 64 (x0 + (7 - n))) := by
  constructor
  · rintro ⟨k, hk, hb, hx⟩
    by_cases hkn : k = n
    · subst hkn
      exact .inr ⟨hb, Fin.ext hx.symm⟩
    · exact .inl ⟨k, by omega, hb, hx⟩
  · rintro (⟨k, hk, hb, hx⟩ | ⟨hb, rfl⟩)
    · exact ⟨k, by omega, hb, hx⟩
    · exact ⟨n, by omega, hb, rfl⟩

theorem columnCovered_ne {x0 : Nat} {b : Byte} {n : Nat} (hn : n < 8) {px : Fin 64}
    (h : ColumnCovered x0 b n px) : px ≠ Fin.ofNat 64 (x0 + (7 - n)) := by
  rintro rfl
  obtain ⟨k, hk, -, hx⟩ := h
  simp only [Fin.ofNat] at hx
  omega

/-- One sprite row: the covered pixels of its row of the frame buffer, each toggled once. -/
theorem drawColumns_spec (x0 : Nat) (y : Fin 32) (b : Byte) : ∀ (n : Nat), n ≤ 8 → ∀ (acc : Frame × Bool),
    (∀ py px, (py = y ∧ ColumnCovered x0 b n px →
        Frame.pixel (drawColumns x0 y b n acc).1 py px = !Frame.pixel acc.1 py px) ∧
      (¬ (py = y ∧ ColumnCovered x0 b n px) →
        Frame.pixel (drawColumns x0 y b n acc).1 py px = Frame.pixel acc.1 py px)) ∧
    ((drawColumns x0 y b n acc).2 = true ↔
      acc.2 = true ∨ ∃ px, ColumnCovered x0 b n px ∧ Frame.pixel acc.1 y px = true) := by
  intro n
  induction n with
  | zero =>
    intro _ acc
    have none : ∀ px, ¬ ColumnCovered x0 b 0 px := fun px ⟨k, hk, _⟩ => by omega
    refine ⟨fun py px => ⟨fun h => absurd h.2 (none px), fun _ => rfl⟩, ?_⟩
    simp [drawColumns, none]
  | succ n ih =>
    intro hn acc
    simp only [drawColumns]
    by_cases hb : b.getLsbD n = true
    · simp only [hb, if_true]
      obtain ⟨ihp, ihc⟩ := ih (by omega) (drawPixel acc y (Fin.ofNat 64 (x0 + (7 - n))))
      constructor
      · intro py px
        obtain ⟨ih1, ih2⟩ := ihp py px
        simp only [drawPixel, Frame.pixel_toggle] at ih1 ih2 ⊢
        constructor
        · rintro ⟨rfl, hc⟩
          rcases columnCovered_succ.mp hc with hc' | ⟨-, rfl⟩
          · rw [ih1 ⟨rfl, hc'⟩, if_neg fun h => columnCovered_ne (by omega) hc' h.2]
          · rw [ih2 fun h => columnCovered_ne (by omega) h.2 rfl, if_pos ⟨rfl, rfl⟩]
        · intro hnot
          have h1 : ¬ (py = y ∧ ColumnCovered x0 b n px) := fun h =>
            hnot ⟨h.1, columnCovered_succ.mpr (.inl h.2)⟩
          have h2 : ¬ (py = y ∧ px = Fin.ofNat 64 (x0 + (7 - n))) := fun h =>
            hnot ⟨h.1, columnCovered_succ.mpr (.inr ⟨hb, h.2⟩)⟩
          rw [ih2 h1, if_neg h2]
      · rw [ihc]
        simp only [drawPixel, Bool.or_eq_true, Frame.pixel_toggle]
        constructor
        · rintro ((h | h) | ⟨px, hc, hp⟩)
          · exact .inl h
          · exact .inr ⟨_, columnCovered_succ.mpr (.inr ⟨hb, rfl⟩), h⟩
          · rw [if_neg fun h => columnCovered_ne (by omega) hc h.2] at hp
            exact .inr ⟨px, columnCovered_succ.mpr (.inl hc), hp⟩
        · rintro (h | ⟨px, hc, hp⟩)
          · exact .inl (.inl h)
          · rcases columnCovered_succ.mp hc with hc' | ⟨-, rfl⟩
            · refine .inr ⟨px, hc', ?_⟩
              rwa [if_neg fun h => columnCovered_ne (by omega) hc' h.2]
            · exact .inl (.inr hp)
    · simp only [hb, Bool.false_eq_true, if_false]
      have same : ∀ px, ColumnCovered x0 b (n + 1) px ↔ ColumnCovered x0 b n px := fun px => by
        rw [columnCovered_succ]; simp [hb]
      simpa only [same] using ih (by omega) acc

/-- A 1 bit of the sprite falls on the pixel, the first byte being at row `y0`. -/
def PixelCovered (x0 y0 : Nat) (bs : List Byte) (py : Fin 32) (px : Fin 64) : Prop :=
  ∃ r, ∃ h : r < bs.length, (y0 + r) % 32 = py.val ∧ ColumnCovered x0 bs[r] 8 px

theorem pixelCovered_cons {x0 y0 : Nat} {b : Byte} {bs : List Byte} {py : Fin 32} {px : Fin 64} :
    PixelCovered x0 y0 (b :: bs) py px ↔
      (py = Fin.ofNat 32 y0 ∧ ColumnCovered x0 b 8 px) ∨ PixelCovered x0 (y0 + 1) bs py px := by
  constructor
  · rintro ⟨r, h, hr, hc⟩
    cases r with
    | zero => exact .inl ⟨Fin.ext hr.symm, hc⟩
    | succ r => exact .inr ⟨r, by simpa using h, by rw [← hr]; congr 1; omega, by simpa using hc⟩
  · rintro (⟨rfl, hc⟩ | ⟨r, h, hr, hc⟩)
    · exact ⟨0, by simp, rfl, hc⟩
    · exact ⟨r + 1, by simpa using h, by rw [← hr]; congr 1; omega, by simpa using hc⟩

theorem pixelCovered_row_ne {x0 y0 : Nat} {bs : List Byte} (hlen : bs.length < 32) {py : Fin 32} {px : Fin 64}
    (h : PixelCovered x0 (y0 + 1) bs py px) : py ≠ Fin.ofNat 32 y0 := by
  rintro rfl
  obtain ⟨r, hr, hy, -⟩ := h
  simp only [Fin.ofNat] at hy
  omega

/-- The whole sprite: the covered pixels, each toggled once (spec/43_display.md R96: no pixel is toggled twice in one
draw, and the order of the loops cannot change the result). -/
theorem drawRows_spec (x0 : Nat) (bs : List Byte) : ∀ (y0 : Nat) (acc : Frame × Bool), bs.length ≤ 32 →
    (∀ py px, (PixelCovered x0 y0 bs py px →
        Frame.pixel (drawRows x0 y0 bs acc).1 py px = !Frame.pixel acc.1 py px) ∧
      (¬ PixelCovered x0 y0 bs py px →
        Frame.pixel (drawRows x0 y0 bs acc).1 py px = Frame.pixel acc.1 py px)) ∧
    ((drawRows x0 y0 bs acc).2 = true ↔
      acc.2 = true ∨ ∃ py px, PixelCovered x0 y0 bs py px ∧ Frame.pixel acc.1 py px = true) := by
  induction bs with
  | nil =>
    intro y0 acc _
    have none : ∀ py px, ¬ PixelCovered x0 y0 [] py px := fun py px ⟨r, h, _⟩ => by simp at h
    refine ⟨fun py px => ⟨fun h => absurd h (none py px), fun _ => rfl⟩, ?_⟩
    simp [drawRows, none]
  | cons b bs ih =>
    intro y0 acc hlen
    simp only [List.length_cons] at hlen
    simp only [drawRows]
    obtain ⟨colp, colc⟩ := drawColumns_spec x0 (Fin.ofNat 32 y0) b 8 (Nat.le_refl 8) acc
    obtain ⟨ihp, ihc⟩ := ih (y0 + 1) (drawColumns x0 (Fin.ofNat 32 y0) b 8 acc) (by omega)
    constructor
    · intro py px
      obtain ⟨ih1, ih2⟩ := ihp py px
      obtain ⟨c1, c2⟩ := colp py px
      constructor
      · intro hc
        rcases pixelCovered_cons.mp hc with h | h
        · rw [ih2 fun h' => pixelCovered_row_ne (by omega) h' h.1, c1 h]
        · rw [ih1 h, c2 fun h' => pixelCovered_row_ne (by omega) h h'.1]
      · intro hnot
        rw [ih2 fun h => hnot (pixelCovered_cons.mpr (.inr h)), c2 fun h => hnot (pixelCovered_cons.mpr (.inl h))]
    · rw [ihc, colc]
      constructor
      · rintro ((h | ⟨px, hc, hp⟩) | ⟨py, px, hc, hp⟩)
        · exact .inl h
        · exact .inr ⟨_, px, pixelCovered_cons.mpr (.inl ⟨rfl, hc⟩), hp⟩
        · rw [(colp py px).2 fun h' => pixelCovered_row_ne (by omega) hc h'.1] at hp
          exact .inr ⟨py, px, pixelCovered_cons.mpr (.inr hc), hp⟩
      · rintro (h | ⟨py, px, hc, hp⟩)
        · exact .inl (.inl h)
        · rcases pixelCovered_cons.mp hc with ⟨rfl, h⟩ | h
          · exact .inl (.inr ⟨px, h, hp⟩)
          · refine .inr ⟨py, px, h, ?_⟩
            rw [(colp py px).2 fun h' => pixelCovered_row_ne (by omega) h h'.1]
            exact hp

end Sys2Proof.Machine
end

