-- ==== Sys2Proof/Laws/Memory.lean ====
section
/-! SUPPORT. The laws of memory: a read after a write, the canonical form kept by every operation, equal reads of two
canonical memories are equal data, and what the byte-range operations do when the range is in memory. -/

namespace Sys2Proof.Machine

/-! ### Reading after writing -/

theorem Memory.read_erase (m : Memory) (a b : Nat) :
    (m.erase a).read b = if b = a then Memory.unlisted a else m.read b := by
  induction m with
  | nil => by_cases h : b = a <;> simp [Memory.erase, Memory.read, h]
  | cons c m ih =>
    unfold Memory.erase at ih ⊢
    by_cases hc : c.1 = a
    · simp only [List.filter, hc, bne_self_eq_false, ih, Memory.read]
      by_cases h : b = a
      · simp [h]
      · simp [h, Ne.symm h]
    · have hne : (c.1 != a) = true := by simp [hc]
      simp only [List.filter, hne, Memory.read, ih]
      by_cases h : c.1 = b
      · have : b ≠ a := h ▸ hc
        simp [h, this]
      · simp [h]

theorem Memory.read_insert (c : Host.Cell) (m : Memory) (b : Nat) (fresh : ∀ d ∈ m, d.1 ≠ c.1) :
    (Memory.insert c m).read b = if c.1 = b then c.2 else m.read b := by
  induction m with
  | nil => rfl
  | cons d m ih =>
    unfold Memory.insert
    split
    · rfl
    · have hd : d.1 ≠ c.1 := fresh d (by simp)
      simp only [Memory.read, ih fun e he => fresh e (by simp [he])]
      by_cases h : d.1 = b
      · have : c.1 ≠ b := fun e => hd (h.trans e.symm)
        simp [h, this]
      · simp [h]

theorem Memory.mem_erase (m : Memory) (a : Nat) : ∀ d ∈ m.erase a, d.1 ≠ a := by
  intro d hd
  simpa using (List.mem_filter.mp hd).2

/-- Reading after a store: the byte stored at its address, every other byte as before. -/
theorem Memory.read_write (m : Memory) (a b : Nat) (v : Byte) :
    (m.write a v).read b = if b = a then v else m.read b := by
  unfold Memory.write
  split
  · next h => simp [Memory.read_erase, h]
  · rw [Memory.read_insert _ _ _ (Memory.mem_erase m a), Memory.read_erase]
    by_cases h : b = a
    · simp [h]
    · simp [h, Ne.symm h]

/-- Reading after storing bytes at consecutive addresses. -/
theorem Memory.read_writeBytes (bs : List Byte) : ∀ (m : Memory) (a b : Nat),
    (m.writeBytes a bs).read b = if a ≤ b then bs.getD (b - a) (m.read b) else m.read b := by
  induction bs with
  | nil => intro m a b; simp [Memory.writeBytes]
  | cons x bs ih =>
    intro m a b
    simp only [Memory.writeBytes, ih, Memory.read_write]
    by_cases hb : b = a
    · subst hb
      simp [show ¬ b + 1 ≤ b by omega]
    · by_cases hle : a + 1 ≤ b
      · have hsub : b - a = b - (a + 1) + 1 := by omega
        simp [hb, hle, show a ≤ b by omega, hsub]
      · simp [hb, hle, show ¬ a ≤ b by omega]

/-! ### The canonical form -/

theorem Memory.wfFrom_cons {lo : Nat} {c : Host.Cell} {m : Memory} :
    Memory.wfFrom lo (c :: m) = true ↔
      lo ≤ c.1 ∧ c.1 < Config.memSize ∧ c.2 ≠ Memory.unlisted c.1 ∧ Memory.wfFrom (c.1 + 1) m = true := by
  simp [Memory.wfFrom, and_assoc]

theorem Memory.wfFrom_mono {lo lo' : Nat} {m : Memory} (h : Memory.wfFrom lo m = true) (hle : lo' ≤ lo) :
    Memory.wfFrom lo' m = true := by
  cases m with
  | nil => rfl
  | cons c m =>
    rw [Memory.wfFrom_cons] at h ⊢
    exact ⟨by omega, h.2⟩

theorem Memory.wfFrom_erase {m : Memory} (a : Nat) : ∀ {lo : Nat}, Memory.wfFrom lo m = true →
    Memory.wfFrom lo (m.erase a) = true := by
  induction m with
  | nil => intro lo h; exact h
  | cons c m ih =>
    intro lo h
    rw [Memory.wfFrom_cons] at h
    have ihm := ih h.2.2.2
    unfold Memory.erase at ihm ⊢
    by_cases hc : c.1 = a
    · simpa [List.filter, hc] using Memory.wfFrom_mono ihm (by omega)
    · have hne : (c.1 != a) = true := by simp [hc]
      simp only [List.filter, hne]
      exact Memory.wfFrom_cons.mpr ⟨h.1, h.2.1, h.2.2.1, ihm⟩

theorem Memory.wfFrom_insert {c : Host.Cell} {m : Memory} (hc : c.1 < Config.memSize)
    (hv : c.2 ≠ Memory.unlisted c.1) (fresh : ∀ d ∈ m, d.1 ≠ c.1) : ∀ {lo : Nat}, lo ≤ c.1 →
    Memory.wfFrom lo m = true → Memory.wfFrom lo (Memory.insert c m) = true := by
  induction m with
  | nil =>
    intro lo hlo _
    exact Memory.wfFrom_cons.mpr ⟨hlo, hc, hv, rfl⟩
  | cons d m ih =>
    intro lo hlo h
    rw [Memory.wfFrom_cons] at h
    unfold Memory.insert
    split
    · next hlt =>
      exact Memory.wfFrom_cons.mpr ⟨hlo, hc, hv, Memory.wfFrom_cons.mpr ⟨by omega, h.2⟩⟩
    · have hd : d.1 ≠ c.1 := fresh d (by simp)
      exact Memory.wfFrom_cons.mpr ⟨h.1, h.2.1, h.2.2.1,
        ih (fun e he => fresh e (by simp [he])) (by omega) h.2.2.2⟩

/-- A store inside memory keeps the canonical form. -/
theorem Memory.wf_write {m : Memory} (h : m.wf = true) {a : Nat} (ha : a < Config.memSize) (v : Byte) :
    (m.write a v).wf = true := by
  unfold Memory.write Memory.wf
  split
  · exact Memory.wfFrom_erase a h
  · next hv => exact Memory.wfFrom_insert ha hv (Memory.mem_erase m a) (Nat.zero_le _) (Memory.wfFrom_erase a h)

/-- Storing bytes inside memory keeps the canonical form. -/
theorem Memory.wf_writeBytes (bs : List Byte) : ∀ {m : Memory} {a : Nat}, m.wf = true →
    a + bs.length ≤ Config.memSize → (m.writeBytes a bs).wf = true := by
  induction bs with
  | nil => intro m a h _; exact h
  | cons b bs ih =>
    intro m a h ha
    simp only [List.length_cons] at ha
    exact ih (Memory.wf_write h (by omega) b) (by omega)

theorem Memory.read_below {m : Memory} : ∀ {lo a : Nat}, Memory.wfFrom lo m = true → a < lo →
    m.read a = Memory.unlisted a := by
  induction m with
  | nil => intro lo a _ _; rfl
  | cons c m ih =>
    intro lo a h ha
    rw [Memory.wfFrom_cons] at h
    simp [Memory.read, show c.1 ≠ a by omega, ih h.2.2.2 (show a < c.1 + 1 by omega)]

theorem Memory.wfFrom_ext {m : Memory} : ∀ {m' : Memory} {lo : Nat}, Memory.wfFrom lo m = true →
    Memory.wfFrom lo m' = true → (∀ a, m.read a = m'.read a) → m = m' := by
  induction m with
  | nil =>
    intro m' lo _ h' e
    cases m' with
    | nil => rfl
    | cons d m' =>
      rw [Memory.wfFrom_cons] at h'
      have := e d.1
      simp only [Memory.read, if_true] at this
      exact absurd this.symm h'.2.2.1
  | cons c m ih =>
    intro m' lo h h' e
    rw [Memory.wfFrom_cons] at h
    cases m' with
    | nil =>
      have := e c.1
      simp only [Memory.read, if_true] at this
      exact absurd this h.2.2.1
    | cons d m' =>
      rw [Memory.wfFrom_cons] at h'
      have hcd : c.1 = d.1 := by
        rcases Nat.lt_trichotomy c.1 d.1 with hlt | heq | hgt
        · have := e c.1
          simp only [Memory.read, if_true, show d.1 ≠ c.1 by omega, if_false,
            Memory.read_below h'.2.2.2 (show c.1 < d.1 + 1 by omega)] at this
          exact absurd this h.2.2.1
        · exact heq
        · have := e d.1
          simp only [Memory.read, if_true, show c.1 ≠ d.1 by omega, if_false,
            Memory.read_below h.2.2.2 (show d.1 < c.1 + 1 by omega)] at this
          exact absurd this.symm h'.2.2.1
      have hv : c.2 = d.2 := by
        have := e c.1
        simpa [Memory.read, hcd] using this
      have hm : m = m' := by
        refine ih h.2.2.2 (hcd ▸ h'.2.2.2) fun a => ?_
        by_cases ha : a < c.1 + 1
        · rw [Memory.read_below h.2.2.2 ha, Memory.read_below h'.2.2.2 (hcd ▸ ha)]
        · have := e a
          simpa [Memory.read, show c.1 ≠ a by omega, show d.1 ≠ a by omega] using this
      rw [hm, show c = d from Prod.ext hcd hv]

/-! ### Byte ranges inside memory -/

/-- Bytes read from a range inside memory: never a fault, and byte `k` is the cell `k` further on. -/
theorem State.loadBytes_inside (s : State) : ∀ (n a : Nat), a + n ≤ Config.memSize →
    s.loadBytes a n = .ok ((List.range n).map fun k => s.mem.read (a + k)) := by
  intro n
  induction n with
  | zero => intro a _; rfl
  | succ n ih =>
    intro a h
    have ha : a < Config.memSize := by omega
    simp only [State.loadBytes, State.memRead, ha, if_true, ih (a + 1) (by omega), List.range_succ_eq_map,
      List.map_cons, List.map_map, Nat.add_zero]
    congr 3
    funext k
    simp [Nat.add_assoc, Nat.add_comm 1 k]

/-- Bytes stored to a range inside memory: never a fault, and memory is all that changes. -/
theorem State.storeBytes_inside (bs : List Byte) : ∀ (s : State) (a : Nat), a + bs.length ≤ Config.memSize →
    s.storeBytes a bs = .ok { s with mem := s.mem.writeBytes a bs } := by
  induction bs with
  | nil => intro s a _; rfl
  | cons b bs ih =>
    intro s a h
    simp only [List.length_cons] at h
    have ha : a < Config.memSize := by omega
    simp only [State.storeBytes, State.memWrite, ha, if_true, Memory.writeBytes]
    exact ih _ (a + 1) (by omega)

/-- The range check passes exactly when every byte of the range exists. -/
theorem State.checkRange_ok {s : State} {n : Nat} (h : n = 0 ∨ s.i.toNat + n ≤ 0x1000) :
    s.checkRange n = .ok () := by
  unfold State.checkRange State.base Config.memSize
  rw [if_neg (by omega)]

/-- Otherwise it is the fault with the lowest offending address. -/
theorem State.checkRange_fault {s : State} {n : Nat} (h0 : 0 < n) (h : 0x1000 < s.i.toNat + n) :
    s.checkRange n = .error (.addressOverflow (max s.i.toNat 0x1000)) := by
  unfold State.checkRange State.base Config.memSize
  rw [if_pos ⟨h0, h⟩]

/-- The fetch of a `PC` inside memory reads its two bytes, the first in the high half. -/
theorem State.fetchWord_inside {s : State} (h : s.pc.toNat ≤ 0xFFE) :
    s.fetchWord = .ok (wordOfBytes (s.mem.read s.pc.toNat) (s.mem.read (s.pc.toNat + 1))) := by
  unfold State.fetchWord State.memRead Config.memSize
  rw [if_neg (by omega), if_pos (by omega), if_pos (by omega)]

/-- The fetch faults exactly when it needs a byte that does not exist. -/
theorem State.fetchWord_outside {s : State} (h : 0xFFE < s.pc.toNat) :
    s.fetchWord = .error (.addressOverflow s.pc.toNat) := by
  unfold State.fetchWord
  rw [if_pos h]

end Sys2Proof.Machine
end

