-- ==== Sys2Proof/Laws/State.lean ====
section
/-! SUPPORT. One lemma per field of the state and per update of it, true by unfolding, so that no later proof unfolds a
record update. -/

namespace Sys2Proof.Machine

variable (s : State)

/-! ### `setReg` -/

@[simp] theorem State.setReg_v (x : Reg) (b : Byte) : (s.setReg x b).v = s.v.set x b := rfl
@[simp] theorem State.setReg_i (x : Reg) (b : Byte) : (s.setReg x b).i = s.i := rfl
@[simp] theorem State.setReg_pc (x : Reg) (b : Byte) : (s.setReg x b).pc = s.pc := rfl
@[simp] theorem State.setReg_sp (x : Reg) (b : Byte) : (s.setReg x b).sp = s.sp := rfl
@[simp] theorem State.setReg_stack (x : Reg) (b : Byte) : (s.setReg x b).stack = s.stack := rfl
@[simp] theorem State.setReg_dt (x : Reg) (b : Byte) : (s.setReg x b).dt = s.dt := rfl
@[simp] theorem State.setReg_st (x : Reg) (b : Byte) : (s.setReg x b).st = s.st := rfl
@[simp] theorem State.setReg_key (x : Reg) (b : Byte) : (s.setReg x b).key = s.key := rfl
@[simp] theorem State.setReg_fb (x : Reg) (b : Byte) : (s.setReg x b).fb = s.fb := rfl
@[simp] theorem State.setReg_needsRedraw (x : Reg) (b : Byte) : (s.setReg x b).needsRedraw = s.needsRedraw := rfl
@[simp] theorem State.setReg_mem (x : Reg) (b : Byte) : (s.setReg x b).mem = s.mem := rfl
@[simp] theorem State.setReg_draws (x : Reg) (b : Byte) : (s.setReg x b).draws = s.draws := rfl

/-! ### `setFlag` -/

@[simp] theorem State.setFlag_v (flag : Bool) : (s.setFlag flag).v = s.v.set 15 (flagByte flag) := rfl
@[simp] theorem State.setFlag_i (flag : Bool) : (s.setFlag flag).i = s.i := rfl
@[simp] theorem State.setFlag_pc (flag : Bool) : (s.setFlag flag).pc = s.pc := rfl
@[simp] theorem State.setFlag_sp (flag : Bool) : (s.setFlag flag).sp = s.sp := rfl
@[simp] theorem State.setFlag_stack (flag : Bool) : (s.setFlag flag).stack = s.stack := rfl
@[simp] theorem State.setFlag_dt (flag : Bool) : (s.setFlag flag).dt = s.dt := rfl
@[simp] theorem State.setFlag_st (flag : Bool) : (s.setFlag flag).st = s.st := rfl
@[simp] theorem State.setFlag_key (flag : Bool) : (s.setFlag flag).key = s.key := rfl
@[simp] theorem State.setFlag_fb (flag : Bool) : (s.setFlag flag).fb = s.fb := rfl
@[simp] theorem State.setFlag_needsRedraw (flag : Bool) : (s.setFlag flag).needsRedraw = s.needsRedraw := rfl
@[simp] theorem State.setFlag_mem (flag : Bool) : (s.setFlag flag).mem = s.mem := rfl
@[simp] theorem State.setFlag_draws (flag : Bool) : (s.setFlag flag).draws = s.draws := rfl

/-! ### `setRegThenFlag` -/

@[simp] theorem State.setRegThenFlag_v (x : Reg) (b : Byte) (flag : Bool) : (s.setRegThenFlag x b flag).v = (s.v.set x b).set 15 (flagByte flag) := rfl
@[simp] theorem State.setRegThenFlag_i (x : Reg) (b : Byte) (flag : Bool) : (s.setRegThenFlag x b flag).i = s.i := rfl
@[simp] theorem State.setRegThenFlag_pc (x : Reg) (b : Byte) (flag : Bool) : (s.setRegThenFlag x b flag).pc = s.pc := rfl
@[simp] theorem State.setRegThenFlag_sp (x : Reg) (b : Byte) (flag : Bool) : (s.setRegThenFlag x b flag).sp = s.sp := rfl
@[simp] theorem State.setRegThenFlag_stack (x : Reg) (b : Byte) (flag : Bool) : (s.setRegThenFlag x b flag).stack = s.stack := rfl
@[simp] theorem State.setRegThenFlag_dt (x : Reg) (b : Byte) (flag : Bool) : (s.setRegThenFlag x b flag).dt = s.dt := rfl
@[simp] theorem State.setRegThenFlag_st (x : Reg) (b : Byte) (flag : Bool) : (s.setRegThenFlag x b flag).st = s.st := rfl
@[simp] theorem State.setRegThenFlag_key (x : Reg) (b : Byte) (flag : Bool) : (s.setRegThenFlag x b flag).key = s.key := rfl
@[simp] theorem State.setRegThenFlag_fb (x : Reg) (b : Byte) (flag : Bool) : (s.setRegThenFlag x b flag).fb = s.fb := rfl
@[simp] theorem State.setRegThenFlag_needsRedraw (x : Reg) (b : Byte) (flag : Bool) : (s.setRegThenFlag x b flag).needsRedraw = s.needsRedraw := rfl
@[simp] theorem State.setRegThenFlag_mem (x : Reg) (b : Byte) (flag : Bool) : (s.setRegThenFlag x b flag).mem = s.mem := rfl
@[simp] theorem State.setRegThenFlag_draws (x : Reg) (b : Byte) (flag : Bool) : (s.setRegThenFlag x b flag).draws = s.draws := rfl

/-! ### `setIndex` -/

@[simp] theorem State.setIndex_v (w : Word) : (s.setIndex w).v = s.v := rfl
@[simp] theorem State.setIndex_i (w : Word) : (s.setIndex w).i = w := rfl
@[simp] theorem State.setIndex_pc (w : Word) : (s.setIndex w).pc = s.pc := rfl
@[simp] theorem State.setIndex_sp (w : Word) : (s.setIndex w).sp = s.sp := rfl
@[simp] theorem State.setIndex_stack (w : Word) : (s.setIndex w).stack = s.stack := rfl
@[simp] theorem State.setIndex_dt (w : Word) : (s.setIndex w).dt = s.dt := rfl
@[simp] theorem State.setIndex_st (w : Word) : (s.setIndex w).st = s.st := rfl
@[simp] theorem State.setIndex_key (w : Word) : (s.setIndex w).key = s.key := rfl
@[simp] theorem State.setIndex_fb (w : Word) : (s.setIndex w).fb = s.fb := rfl
@[simp] theorem State.setIndex_needsRedraw (w : Word) : (s.setIndex w).needsRedraw = s.needsRedraw := rfl
@[simp] theorem State.setIndex_mem (w : Word) : (s.setIndex w).mem = s.mem := rfl
@[simp] theorem State.setIndex_draws (w : Word) : (s.setIndex w).draws = s.draws := rfl

/-! ### `setRegs` -/

@[simp] theorem State.setRegs_v (bytes : List Byte) : (s.setRegs bytes).v = Vector.ofFn fun k : Fin 16 => bytes.getD k.val s.v[k] := rfl
@[simp] theorem State.setRegs_i (bytes : List Byte) : (s.setRegs bytes).i = s.i := rfl
@[simp] theorem State.setRegs_pc (bytes : List Byte) : (s.setRegs bytes).pc = s.pc := rfl
@[simp] theorem State.setRegs_sp (bytes : List Byte) : (s.setRegs bytes).sp = s.sp := rfl
@[simp] theorem State.setRegs_stack (bytes : List Byte) : (s.setRegs bytes).stack = s.stack := rfl
@[simp] theorem State.setRegs_dt (bytes : List Byte) : (s.setRegs bytes).dt = s.dt := rfl
@[simp] theorem State.setRegs_st (bytes : List Byte) : (s.setRegs bytes).st = s.st := rfl
@[simp] theorem State.setRegs_key (bytes : List Byte) : (s.setRegs bytes).key = s.key := rfl
@[simp] theorem State.setRegs_fb (bytes : List Byte) : (s.setRegs bytes).fb = s.fb := rfl
@[simp] theorem State.setRegs_needsRedraw (bytes : List Byte) : (s.setRegs bytes).needsRedraw = s.needsRedraw := rfl
@[simp] theorem State.setRegs_mem (bytes : List Byte) : (s.setRegs bytes).mem = s.mem := rfl
@[simp] theorem State.setRegs_draws (bytes : List Byte) : (s.setRegs bytes).draws = s.draws := rfl

/-! ### `jump` -/

@[simp] theorem State.jump_v (target : Word) : (s.jump target).v = s.v := rfl
@[simp] theorem State.jump_i (target : Word) : (s.jump target).i = s.i := rfl
@[simp] theorem State.jump_pc (target : Word) : (s.jump target).pc = target := rfl
@[simp] theorem State.jump_sp (target : Word) : (s.jump target).sp = s.sp := rfl
@[simp] theorem State.jump_stack (target : Word) : (s.jump target).stack = s.stack := rfl
@[simp] theorem State.jump_dt (target : Word) : (s.jump target).dt = s.dt := rfl
@[simp] theorem State.jump_st (target : Word) : (s.jump target).st = s.st := rfl
@[simp] theorem State.jump_key (target : Word) : (s.jump target).key = s.key := rfl
@[simp] theorem State.jump_fb (target : Word) : (s.jump target).fb = s.fb := rfl
@[simp] theorem State.jump_needsRedraw (target : Word) : (s.jump target).needsRedraw = s.needsRedraw := rfl
@[simp] theorem State.jump_mem (target : Word) : (s.jump target).mem = s.mem := rfl
@[simp] theorem State.jump_draws (target : Word) : (s.jump target).draws = s.draws := rfl

/-! ### `advance` -/

@[simp] theorem State.advance_v : (s.advance).v = s.v := rfl
@[simp] theorem State.advance_i : (s.advance).i = s.i := rfl
@[simp] theorem State.advance_pc : (s.advance).pc = s.pc + 2 := rfl
@[simp] theorem State.advance_sp : (s.advance).sp = s.sp := rfl
@[simp] theorem State.advance_stack : (s.advance).stack = s.stack := rfl
@[simp] theorem State.advance_dt : (s.advance).dt = s.dt := rfl
@[simp] theorem State.advance_st : (s.advance).st = s.st := rfl
@[simp] theorem State.advance_key : (s.advance).key = s.key := rfl
@[simp] theorem State.advance_fb : (s.advance).fb = s.fb := rfl
@[simp] theorem State.advance_needsRedraw : (s.advance).needsRedraw = s.needsRedraw := rfl
@[simp] theorem State.advance_mem : (s.advance).mem = s.mem := rfl
@[simp] theorem State.advance_draws : (s.advance).draws = s.draws := rfl

/-! ### `tick` -/

@[simp] theorem State.tick_v : (s.tick).v = s.v := rfl
@[simp] theorem State.tick_i : (s.tick).i = s.i := rfl
@[simp] theorem State.tick_pc : (s.tick).pc = s.pc := rfl
@[simp] theorem State.tick_sp : (s.tick).sp = s.sp := rfl
@[simp] theorem State.tick_stack : (s.tick).stack = s.stack := rfl
@[simp] theorem State.tick_dt : (s.tick).dt = countDown s.dt := rfl
@[simp] theorem State.tick_st : (s.tick).st = countDown s.st := rfl
@[simp] theorem State.tick_key : (s.tick).key = s.key := rfl
@[simp] theorem State.tick_fb : (s.tick).fb = s.fb := rfl
@[simp] theorem State.tick_needsRedraw : (s.tick).needsRedraw = s.needsRedraw := rfl
@[simp] theorem State.tick_mem : (s.tick).mem = s.mem := rfl
@[simp] theorem State.tick_draws : (s.tick).draws = s.draws := rfl

/-! ### `consumeRandom` -/

@[simp] theorem State.consumeRandom_v : (s.consumeRandom).v = s.v := rfl
@[simp] theorem State.consumeRandom_i : (s.consumeRandom).i = s.i := rfl
@[simp] theorem State.consumeRandom_pc : (s.consumeRandom).pc = s.pc := rfl
@[simp] theorem State.consumeRandom_sp : (s.consumeRandom).sp = s.sp := rfl
@[simp] theorem State.consumeRandom_stack : (s.consumeRandom).stack = s.stack := rfl
@[simp] theorem State.consumeRandom_dt : (s.consumeRandom).dt = s.dt := rfl
@[simp] theorem State.consumeRandom_st : (s.consumeRandom).st = s.st := rfl
@[simp] theorem State.consumeRandom_key : (s.consumeRandom).key = s.key := rfl
@[simp] theorem State.consumeRandom_fb : (s.consumeRandom).fb = s.fb := rfl
@[simp] theorem State.consumeRandom_needsRedraw : (s.consumeRandom).needsRedraw = s.needsRedraw := rfl
@[simp] theorem State.consumeRandom_mem : (s.consumeRandom).mem = s.mem := rfl
@[simp] theorem State.consumeRandom_draws : (s.consumeRandom).draws = s.draws + 1 := rfl

/-! ### `setKey` -/

@[simp] theorem State.setKey_v (k : Key) (down : Bool) : (s.setKey k down).v = s.v := rfl
@[simp] theorem State.setKey_i (k : Key) (down : Bool) : (s.setKey k down).i = s.i := rfl
@[simp] theorem State.setKey_pc (k : Key) (down : Bool) : (s.setKey k down).pc = s.pc := rfl
@[simp] theorem State.setKey_sp (k : Key) (down : Bool) : (s.setKey k down).sp = s.sp := rfl
@[simp] theorem State.setKey_stack (k : Key) (down : Bool) : (s.setKey k down).stack = s.stack := rfl
@[simp] theorem State.setKey_dt (k : Key) (down : Bool) : (s.setKey k down).dt = s.dt := rfl
@[simp] theorem State.setKey_st (k : Key) (down : Bool) : (s.setKey k down).st = s.st := rfl
@[simp] theorem State.setKey_key (k : Key) (down : Bool) : (s.setKey k down).key = s.key.set k down := rfl
@[simp] theorem State.setKey_fb (k : Key) (down : Bool) : (s.setKey k down).fb = s.fb := rfl
@[simp] theorem State.setKey_needsRedraw (k : Key) (down : Bool) : (s.setKey k down).needsRedraw = s.needsRedraw := rfl
@[simp] theorem State.setKey_mem (k : Key) (down : Bool) : (s.setKey k down).mem = s.mem := rfl
@[simp] theorem State.setKey_draws (k : Key) (down : Bool) : (s.setKey k down).draws = s.draws := rfl

/-! ### `clearRedraw` -/

@[simp] theorem State.clearRedraw_v : (s.clearRedraw).v = s.v := rfl
@[simp] theorem State.clearRedraw_i : (s.clearRedraw).i = s.i := rfl
@[simp] theorem State.clearRedraw_pc : (s.clearRedraw).pc = s.pc := rfl
@[simp] theorem State.clearRedraw_sp : (s.clearRedraw).sp = s.sp := rfl
@[simp] theorem State.clearRedraw_stack : (s.clearRedraw).stack = s.stack := rfl
@[simp] theorem State.clearRedraw_dt : (s.clearRedraw).dt = s.dt := rfl
@[simp] theorem State.clearRedraw_st : (s.clearRedraw).st = s.st := rfl
@[simp] theorem State.clearRedraw_key : (s.clearRedraw).key = s.key := rfl
@[simp] theorem State.clearRedraw_fb : (s.clearRedraw).fb = s.fb := rfl
@[simp] theorem State.clearRedraw_needsRedraw : (s.clearRedraw).needsRedraw = false := rfl
@[simp] theorem State.clearRedraw_mem : (s.clearRedraw).mem = s.mem := rfl
@[simp] theorem State.clearRedraw_draws : (s.clearRedraw).draws = s.draws := rfl

/-! ### `restart` -/

@[simp] theorem State.restart_v : (s.restart).v = State.reset.v := rfl
@[simp] theorem State.restart_i : (s.restart).i = State.reset.i := rfl
@[simp] theorem State.restart_pc : (s.restart).pc = State.reset.pc := rfl
@[simp] theorem State.restart_sp : (s.restart).sp = State.reset.sp := rfl
@[simp] theorem State.restart_stack : (s.restart).stack = State.reset.stack := rfl
@[simp] theorem State.restart_dt : (s.restart).dt = State.reset.dt := rfl
@[simp] theorem State.restart_st : (s.restart).st = State.reset.st := rfl
@[simp] theorem State.restart_key : (s.restart).key = State.reset.key := rfl
@[simp] theorem State.restart_fb : (s.restart).fb = State.reset.fb := rfl
@[simp] theorem State.restart_needsRedraw : (s.restart).needsRedraw = State.reset.needsRedraw := rfl
@[simp] theorem State.restart_mem : (s.restart).mem = State.reset.mem := rfl
@[simp] theorem State.restart_draws : (s.restart).draws = s.draws := rfl

/-! ### `skipIf` -/

@[simp] theorem State.skipIf_v (c : Bool) : (s.skipIf c).v = s.v := by cases c <;> rfl
@[simp] theorem State.skipIf_i (c : Bool) : (s.skipIf c).i = s.i := by cases c <;> rfl
@[simp] theorem State.skipIf_pc (c : Bool) : (s.skipIf c).pc = if c then s.pc + 4 else s.pc + 2 := by
  cases c <;> rfl
@[simp] theorem State.skipIf_sp (c : Bool) : (s.skipIf c).sp = s.sp := by cases c <;> rfl
@[simp] theorem State.skipIf_stack (c : Bool) : (s.skipIf c).stack = s.stack := by cases c <;> rfl
@[simp] theorem State.skipIf_dt (c : Bool) : (s.skipIf c).dt = s.dt := by cases c <;> rfl
@[simp] theorem State.skipIf_st (c : Bool) : (s.skipIf c).st = s.st := by cases c <;> rfl
@[simp] theorem State.skipIf_key (c : Bool) : (s.skipIf c).key = s.key := by cases c <;> rfl
@[simp] theorem State.skipIf_fb (c : Bool) : (s.skipIf c).fb = s.fb := by cases c <;> rfl
@[simp] theorem State.skipIf_needsRedraw (c : Bool) : (s.skipIf c).needsRedraw = s.needsRedraw := by cases c <;> rfl
@[simp] theorem State.skipIf_mem (c : Bool) : (s.skipIf c).mem = s.mem := by cases c <;> rfl
@[simp] theorem State.skipIf_draws (c : Bool) : (s.skipIf c).draws = s.draws := by cases c <;> rfl

end Sys2Proof.Machine
end

