-- ==== Sys2Proof/Laws/Ops.lean ====
section
/-! SUPPORT. What each shared operation answers, said once, so that proofs about the meanings cite these and do not
unfold the operations; then the step taken apart into its phases. -/

namespace Sys2Proof.Machine

/-! ### Stack -/

theorem State.push_room (s : State) (w : Word) (room : s.sp.val < 16) :
    s.push w = .ok { s with stack := s.stack.set s.sp.val w, sp := ⟨s.sp.val + 1, by omega⟩ } := by
  simp [State.push, room]

theorem State.push_full (s : State) (w : Word) (full : s.sp.val = 16) : s.push w = .error (.stackOverflow s.pc) := by
  simp [State.push, full]

theorem State.pop_live (s : State) (live : 0 < s.sp.val) :
    s.pop = .ok (s.stack[s.sp.val - 1]'(by omega), { s with sp := ⟨s.sp.val - 1, by omega⟩ }) := by
  simp [State.pop, live]

theorem State.pop_empty (s : State) (empty : s.sp.val = 0) : s.pop = .error (.stackUnderflow s.pc) := by
  simp [State.pop, empty]

/-! ### Keys -/

theorem keyOperand_inside {b : Byte} {k : Key} (h : b.toNat = k.val) : keyOperand b = .ok k := by
  simp [keyOperand, h]

theorem keyOperand_outside {b : Byte} (h : 15 < b.toNat) : keyOperand b = .error (.keyIndexOutOfRange b) := by
  simp [keyOperand, show ¬ b.toNat < 16 by omega]

theorem State.leastKeyDown_none {s : State} (h : ∀ k : Key, s.key[k] = false) : s.leastKeyDown = none := by
  unfold State.leastKeyDown
  exact List.find?_eq_none.mpr fun k _ => by simpa using h k

theorem State.leastKeyDown_some {s : State} {k : Key} (down : s.key[k] = true)
    (least : ∀ j : Key, j < k → s.key[j] = false) : s.leastKeyDown = some k := by
  unfold State.leastKeyDown
  rw [List.find?_eq_some_iff_getElem]
  refine ⟨down, k.val, by simp, by simp, fun j hj => ?_⟩
  have := least ⟨j, by omega⟩ hj
  simpa using this

theorem State.leastKeyDown_eq_some {s : State} {k : Key} (h : s.leastKeyDown = some k) : s.key[k] = true :=
  List.find?_some (p := fun k : Key => s.key[k]) h

/-! ### Data accesses -/

/-- A store of bytes that all fit: memory and `pc` are all that changes. -/
theorem State.storeFromIndex_inside (s : State) (bytes : List Byte) (h : s.i.toNat + bytes.length ≤ 0x1000) :
    s.storeFromIndex bytes = .next { s with mem := s.mem.writeBytes s.i.toNat bytes, pc := s.pc + 2 } := by
  simp only [State.storeFromIndex, State.checkRange_ok (.inr h), State.base,
    State.storeBytes_inside bytes s s.i.toNat h, State.advance, State.jump]

/-- A store of bytes that do not all fit: the fault, and nothing else. -/
theorem State.storeFromIndex_outside (s : State) (bytes : List Byte) (h0 : 0 < bytes.length)
    (h : 0x1000 < s.i.toNat + bytes.length) :
    s.storeFromIndex bytes = .fault (.addressOverflow (max s.i.toNat 0x1000)) := by
  simp only [State.storeFromIndex, State.checkRange_fault h0 h, raise]

theorem State.length_regsUpTo (s : State) (x : Reg) : (s.regsUpTo x).length = x.val + 1 := by
  simp [State.regsUpTo]

theorem State.getD_regsUpTo (s : State) (x k : Reg) (h : k.val ≤ x.val) (d : Byte) :
    (s.regsUpTo x).getD k.val d = s.v[k] := by
  have hlt : k.val < x.val + 1 := by omega
  simp [State.regsUpTo, List.getD_eq_getElem?_getD, hlt]

/-! ### The step -/

/-- Fetch and decode succeed exactly when `PC` is in memory and its word decodes. -/
theorem State.fetchInstr_ok_iff {s : State} {i : Instr} : s.fetchInstr = .ok i ↔
    s.pc.toNat ≤ 0xFFE ∧ decode (wordOfBytes (s.mem.read s.pc.toNat) (s.mem.read (s.pc.toNat + 1))) = .ok i := by
  unfold State.fetchInstr
  by_cases h : s.pc.toNat ≤ 0xFFE
  · simp only [State.fetchWord_inside h, h, true_and]
    cases decode (wordOfBytes (s.mem.read s.pc.toNat) (s.mem.read (s.pc.toNat + 1))) with
    | error e => cases e; simp
    | ok j => simp
  · simp [State.fetchWord_outside (show 0xFFE < s.pc.toNat by omega), h]

/-- A step with its instruction fetched is the execute phase and the tick. -/
theorem step_of_fetchInstr {s : State} {i : Instr} (h : s.fetchInstr = .ok i) : step s = endStep (exec i s) := by
  simp only [step, State.runStep, h]

/-- A step that completes fetched an instruction, executed it, and ticked. -/
theorem step_next {s u : State} (h : step s = .next u) :
    ∃ i t, s.fetchInstr = .ok i ∧ exec i s = .next t ∧ u = t.tick := by
  unfold step State.runStep at h
  split at h
  · cases h
  · next i hi =>
    refine ⟨i, ?_⟩
    unfold endStep at h
    split at h
    · next t ht => exact ⟨t, hi, ht, (Host.Outcome.next.inj h).symm⟩
    · cases h
    · cases h

/-- A step that faults did so in the fetch or the decode, or in the execute phase. -/
theorem step_fault {s : State} {f : Fault} (h : step s = .fault f) :
    s.fetchInstr = .error f ∨ ∃ i, s.fetchInstr = .ok i ∧ exec i s = .fault f := by
  unfold step State.runStep raise at h
  split at h
  · next g hg => exact .inl (by rw [hg]; congr 1; exact Host.Outcome.fault.inj h)
  · next i hi =>
    unfold endStep raise at h
    split at h
    · cases h
    · next g hg => exact .inr ⟨i, hi, by rw [hg]; exact h⟩
    · cases h

/-- One decrement, clamped at 0, as a number (spec/60_exceptions.md R118). -/
theorem countDown_toNat (t : Byte) : (countDown t).toNat = t.toNat - 1 := by
  unfold countDown
  split
  · next h => simp [h]
  · next h =>
    have hne : t.toNat ≠ 0 := fun e => h (BitVec.eq_of_toNat_eq (by simpa using e))
    have := t.isLt
    rw [BitVec.toNat_sub]
    simp
    omega

end Sys2Proof.Machine
end

