-- ==== Sys2Proof/Laws/Exec.lean ====
section
/-! SUPPORT. What a meaning that can stop did when it answered a next state: its condition held, and the next state is
this one. The other meanings are one expression each and unfold to their next state. -/

namespace Sys2Proof.Machine

variable {s t : State}

theorem State.checkRange_eq_ok {n : Nat} {u : Unit} (h : s.checkRange n = .ok u) : n = 0 ∨ s.i.toNat + n ≤ 0x1000 := by
  unfold State.checkRange State.base Config.memSize at h
  split at h
  · cases h
  · omega

theorem State.storeFromIndex_next {bytes : List Byte} (h : s.storeFromIndex bytes = .next t) :
    (bytes = [] ∨ s.i.toNat + bytes.length ≤ 0x1000) ∧
      t = { s with mem := s.mem.writeBytes s.i.toNat bytes, pc := s.pc + 2 } := by
  by_cases hb : bytes = []
  · subst hb
    refine ⟨.inl rfl, ?_⟩
    simpa [State.storeFromIndex, State.checkRange, State.storeBytes, Memory.writeBytes, State.advance, State.jump]
      using h.symm
  · have hpos : 0 < bytes.length := List.length_pos_iff.mpr hb
    by_cases hin : s.i.toNat + bytes.length ≤ 0x1000
    · rw [State.storeFromIndex_inside s bytes hin] at h
      exact ⟨.inr hin, (Host.Outcome.next.inj h).symm⟩
    · rw [State.storeFromIndex_outside s bytes hpos (by omega)] at h
      cases h

theorem length_decimalDigits (b : Byte) : (decimalDigits b).length = 3 := rfl

theorem execRet_next (h : exec .ret s = .next t) : ∃ live : 0 < s.sp.val,
    t = { s with sp := ⟨s.sp.val - 1, by omega⟩, pc := s.stack[s.sp.val - 1]'(by omega) + 2 } := by
  by_cases live : 0 < s.sp.val
  · refine ⟨live, ?_⟩
    simp only [exec, execRet, State.pop_live s live, State.jump] at h
    exact (Host.Outcome.next.inj h).symm
  · simp [exec, execRet, State.pop_empty s (by omega), raise] at h

theorem execCallNnn_next {nnn : Address} (h : exec (.callNnn nnn) s = .next t) : ∃ room : s.sp.val < 16,
    t = { s with
      stack := s.stack.set s.sp.val s.pc, sp := ⟨s.sp.val + 1, by omega⟩, pc := addressOperand nnn } := by
  by_cases room : s.sp.val < 16
  · refine ⟨room, ?_⟩
    simp only [exec, execCallNnn, State.push_room s s.pc room, State.jump] at h
    exact (Host.Outcome.next.inj h).symm
  · simp [exec, execCallNnn, State.push_full s s.pc (by omega), raise] at h

theorem execLdVxMemI_next {x : Reg} (h : exec (.ldVxMemI x) s = .next t) : s.i.toNat + x.val ≤ 0xFFF ∧
    t = (s.setRegs ((List.range (x.val + 1)).map fun k => s.mem.read (s.i.toNat + k))).advance := by
  simp only [exec, execLdVxMemI] at h
  by_cases hin : s.i.toNat + (x.val + 1) ≤ 0x1000
  · rw [State.checkRange_ok (.inr hin), State.base, State.loadBytes_inside s _ _ hin] at h
    exact ⟨by omega, (Host.Outcome.next.inj h).symm⟩
  · rw [State.checkRange_fault (by omega) (by omega)] at h
    cases h

/-- The bytes of a sprite of `n` rows at `I`. -/
def State.spriteBytes (s : State) (n : Nat) : List Byte := (List.range n).map fun k => s.mem.read (s.i.toNat + k)

/-- What a draw leaves behind when its sprite is in memory. -/
def State.afterDraw (s : State) (x y : Reg) (n : Height) : State :=
  let drawn := drawRows (s.reg x).toNat (s.reg y).toNat (s.spriteBytes n.val) (s.fb, false)
  { s with fb := drawn.1, v := s.v.set 15 (flagByte drawn.2), needsRedraw := true, pc := s.pc + 2 }

theorem execDrwVxVyN_inside (x y : Reg) (n : Height) (h : n.val = 0 ∨ s.i.toNat + n.val ≤ 0x1000) :
    exec (.drwVxVyN x y n) s = .next (s.afterDraw x y n) := by
  have hload : s.loadBytes s.base n.val = .ok (s.spriteBytes n.val) := by
    rcases h with h | h
    · rw [h]; rfl
    · exact State.loadBytes_inside s _ _ h
  simp only [exec, execDrwVxVyN, State.checkRange_ok h, hload]
  rfl

theorem execDrwVxVyN_next {x y : Reg} {n : Height} (h : exec (.drwVxVyN x y n) s = .next t) :
    (n.val = 0 ∨ s.i.toNat + n.val ≤ 0x1000) ∧ t = s.afterDraw x y n := by
  by_cases hin : n.val = 0 ∨ s.i.toNat + n.val ≤ 0x1000
  · rw [execDrwVxVyN_inside x y n hin] at h
    exact ⟨hin, (Host.Outcome.next.inj h).symm⟩
  · simp only [exec, execDrwVxVyN, State.checkRange_fault (show 0 < n.val by omega) (show 0x1000 < s.i.toNat + n.val by omega)] at h
    cases h

theorem execSkpVx_next {x : Reg} (h : exec (.skpVx x) s = .next t) : ∃ k : Key, (s.reg x).toNat = k.val ∧
    t = s.skipIf s.key[k] := by
  by_cases hk : (s.reg x).toNat < 16
  · simp only [exec, execSkpVx, keyOperand_inside (k := ⟨_, hk⟩) rfl] at h
    exact ⟨⟨_, hk⟩, rfl, (Host.Outcome.next.inj h).symm⟩
  · simp only [exec, execSkpVx, keyOperand_outside (show 15 < (s.reg x).toNat by omega)] at h
    cases h

theorem execSknpVx_next {x : Reg} (h : exec (.sknpVx x) s = .next t) : ∃ k : Key, (s.reg x).toNat = k.val ∧
    t = s.skipIf (!s.key[k]) := by
  by_cases hk : (s.reg x).toNat < 16
  · simp only [exec, execSknpVx, keyOperand_inside (k := ⟨_, hk⟩) rfl] at h
    exact ⟨⟨_, hk⟩, rfl, (Host.Outcome.next.inj h).symm⟩
  · simp only [exec, execSknpVx, keyOperand_outside (show 15 < (s.reg x).toNat by omega)] at h
    cases h

theorem execLdVxK_next {x : Reg} (h : exec (.ldVxK x) s = .next t) :
    (∃ k : Key, s.key[k] = true ∧ t = (s.setReg x (BitVec.ofNat 8 k.val)).advance) ∨
      ((∀ k : Key, s.key[k] = false) ∧ t = s) := by
  simp only [exec, execLdVxK] at h
  split at h
  · next k hk => exact .inl ⟨k, State.leastKeyDown_eq_some hk, (Host.Outcome.next.inj h).symm⟩
  · next hn =>
    refine .inr ⟨fun k => ?_, (Host.Outcome.next.inj h).symm⟩
    have := List.find?_eq_none.mp hn k (List.mem_finRange k)
    simpa using this

end Sys2Proof.Machine
end

