-- ==== Sys2Proof/Laws/HostPort.lean ====
section
/-! SUPPORT. What the host's operations answer: a requested step, one action of a session, and a run of actions
(spec/60_exceptions.md R124, R128). -/

namespace Sys2Proof.Machine

/-! ### A requested step -/

theorem State.requestStep_next {s t : State} (h : step s = .next t) : s.requestStep = (.ok, t) := by
  simp [State.requestStep, h]

theorem State.requestStep_fault {s : State} {f : Fault} (h : step s = .fault f) : s.requestStep = (.fault f, s) := by
  simp [State.requestStep, h]

/-! ### Load -/

theorem State.load_fits (s : State) {image : List Byte} (h : image.length ≤ 3584) :
    s.load image = .ok { s with mem := s.mem.writeBytes Config.loadBase image } := by
  simp [State.load, Config.maxImage, show ¬ 3584 < image.length by omega]

theorem State.load_tooLarge (s : State) {image : List Byte} (h : 3584 < image.length) :
    s.load image = .error .programTooLarge := by
  simp [State.load, Config.maxImage, h]

/-! ### One action -/

/-- An action is carried out, when allowed, or turned away. -/
theorem Session.act_cases (h : Session) (a : HostAction) :
    (h.phase.allows a = true ∧ h.act a = h.perform a) ∨ (h.phase.allows a = false ∧ h.act a = (.notAllowed, h)) := by
  unfold Session.act
  cases h.phase.allows a <;> simp

@[simp] theorem Session.act_restart (h : Session) :
    h.act .restart = (.done, { state := h.state.restart, phase := .initialized }) := by
  obtain ⟨s, p⟩ := h
  cases p <;> rfl

@[simp] theorem Session.act_step_of_ne {h : Session} (live : h.phase ≠ .startFailed) :
    h.act .step = (h.state.requestStep.1, { state := h.state.requestStep.2, phase := .stepping }) := by
  obtain ⟨s, p⟩ := h
  cases p <;> first | rfl | exact absurd rfl live

@[simp] theorem Session.act_setKey_of_ne {h : Session} (live : h.phase ≠ .startFailed) (k : Key) (down : Bool) :
    h.act (.setKey k down) = (.done, { h with state := h.state.setKey k down }) := by
  obtain ⟨s, p⟩ := h
  cases p <;> first | rfl | exact absurd rfl live

@[simp] theorem Session.act_clearRedraw_of_ne {h : Session} (live : h.phase ≠ .startFailed) :
    h.act .clearRedraw = (.done, { h with state := h.state.clearRedraw }) := by
  obtain ⟨s, p⟩ := h
  cases p <;> first | rfl | exact absurd rfl live

/-- A load is carried out right after `initialize` only. -/
theorem Session.act_load_of_ne {h : Session} (late : h.phase ≠ .initialized) (image : List Byte) :
    h.act (.load image) = (.notAllowed, h) := by
  obtain ⟨s, p⟩ := h
  cases p <;> first | rfl | exact absurd rfl late

/-- After a load that failed every action but `initialize` is turned away. -/
theorem Session.act_startFailed {h : Session} (failed : h.phase = .startFailed) {a : HostAction} (ha : a ≠ .restart) :
    h.act a = (.notAllowed, h) := by
  obtain ⟨s, p⟩ := h
  subst failed
  cases a <;> first | rfl | exact absurd rfl ha

/-! ### A run of actions -/

@[simp] theorem Session.run_nil (h : Session) : h.run [] = ([], h) := rfl

@[simp] theorem Session.run_cons (h : Session) (a : HostAction) (rest : List HostAction) :
    h.run (a :: rest) = ((h.act a).1 :: ((h.act a).2.run rest).1, ((h.act a).2.run rest).2) := rfl

/-- A property that every action keeps holds after every run. -/
theorem Session.run_keeps {P : Session → Prop} (one : ∀ h a, P h → P (h.act a).2) (actions : List HostAction) :
    ∀ h, P h → P (h.run actions).2 := by
  induction actions with
  | nil => exact fun h hp => hp
  | cons a rest ih => exact fun h hp => ih _ (one h a hp)

end Sys2Proof.Machine
end

