-- ==== Sys2Proof/Laws/PerInstr.lean ====
section
/-! SUPPORT. Statements about every instruction as syntax, one lemma per constructor. `OperandsFit`: every operand
fits its field, so no instruction of the model is ill formed (spec/30_encoding.md R47: "no field value is illegal"),
and no instruction has more than the three operands of the widest format (R48). -/

namespace Sys2Proof

theorem Operand.register_fits (x : Reg) : Operand.wellFormed (.register x.val) = true := by
  simp [Operand.wellFormed]

theorem Operand.height_fits (n : Height) : Operand.wellFormed (.height n.val) = true := by
  simp [Operand.wellFormed]

theorem Operand.byte_fits (kk : Byte) : Operand.wellFormed (.byte kk.toNat) = true := by
  simpa [Operand.wellFormed] using kk.isLt

theorem Operand.address_fits (nnn : Address) : Operand.wellFormed (.address nnn.toNat) = true := by
  simpa [Operand.wellFormed] using nnn.isLt

namespace Laws.OperandsFit

/-- The instruction is well formed and has at most three operands. -/
def Statement (i : Instr) : Prop := i.wellFormed = true ∧ i.operands.length ≤ 3

theorem of_none {i : Instr} (h : i.operands = []) : Statement i := by
  simp [Statement, Instr.wellFormed, h]

theorem of_address {i : Instr} {nnn : Address} (h : i.operands = [.address nnn.toNat]) : Statement i := by
  simp [Statement, Instr.wellFormed, h, Operand.address_fits]

theorem of_register {i : Instr} {x : Reg} (h : i.operands = [.register x.val]) : Statement i := by
  simp [Statement, Instr.wellFormed, h, Operand.register_fits]

theorem of_register_byte {i : Instr} {x : Reg} {kk : Byte} (h : i.operands = [.register x.val, .byte kk.toNat]) :
    Statement i := by
  simp [Statement, Instr.wellFormed, h, Operand.register_fits, Operand.byte_fits]

theorem of_registers {i : Instr} {x y : Reg} (h : i.operands = [.register x.val, .register y.val]) : Statement i := by
  simp [Statement, Instr.wellFormed, h, Operand.register_fits]

theorem cls : Statement .cls := of_none rfl

theorem ret : Statement .ret := of_none rfl

theorem jpNnn (nnn : Address) : Statement (.jpNnn nnn) := of_address rfl

theorem callNnn (nnn : Address) : Statement (.callNnn nnn) := of_address rfl

theorem seVxKk (x : Reg) (kk : Byte) : Statement (.seVxKk x kk) := of_register_byte rfl

theorem sneVxKk (x : Reg) (kk : Byte) : Statement (.sneVxKk x kk) := of_register_byte rfl

theorem seVxVy (x y : Reg) : Statement (.seVxVy x y) := of_registers rfl

theorem ldVxKk (x : Reg) (kk : Byte) : Statement (.ldVxKk x kk) := of_register_byte rfl

theorem addVxKk (x : Reg) (kk : Byte) : Statement (.addVxKk x kk) := of_register_byte rfl

theorem ldVxVy (x y : Reg) : Statement (.ldVxVy x y) := of_registers rfl

theorem orVxVy (x y : Reg) : Statement (.orVxVy x y) := of_registers rfl

theorem andVxVy (x y : Reg) : Statement (.andVxVy x y) := of_registers rfl

theorem xorVxVy (x y : Reg) : Statement (.xorVxVy x y) := of_registers rfl

theorem addVxVy (x y : Reg) : Statement (.addVxVy x y) := of_registers rfl

theorem subVxVy (x y : Reg) : Statement (.subVxVy x y) := of_registers rfl

theorem shrVx (x y : Reg) : Statement (.shrVx x y) := of_registers rfl

theorem subnVxVy (x y : Reg) : Statement (.subnVxVy x y) := of_registers rfl

theorem shlVx (x y : Reg) : Statement (.shlVx x y) := of_registers rfl

theorem sneVxVy (x y : Reg) : Statement (.sneVxVy x y) := of_registers rfl

theorem ldINnn (nnn : Address) : Statement (.ldINnn nnn) := of_address rfl

theorem jpV0Nnn (nnn : Address) : Statement (.jpV0Nnn nnn) := of_address rfl

theorem rndVxKk (x : Reg) (kk : Byte) : Statement (.rndVxKk x kk) := of_register_byte rfl

theorem drwVxVyN (x y : Reg) (n : Height) : Statement (.drwVxVyN x y n) := by
  simp [Statement, Instr.wellFormed, Instr.operands, Operand.register_fits, Operand.height_fits]

theorem skpVx (x : Reg) : Statement (.skpVx x) := of_register rfl

theorem sknpVx (x : Reg) : Statement (.sknpVx x) := of_register rfl

theorem ldVxDt (x : Reg) : Statement (.ldVxDt x) := of_register rfl

theorem ldVxK (x : Reg) : Statement (.ldVxK x) := of_register rfl

theorem ldDtVx (x : Reg) : Statement (.ldDtVx x) := of_register rfl

theorem ldStVx (x : Reg) : Statement (.ldStVx x) := of_register rfl

theorem addIVx (x : Reg) : Statement (.addIVx x) := of_register rfl

theorem ldFVx (x : Reg) : Statement (.ldFVx x) := of_register rfl

theorem ldBVx (x : Reg) : Statement (.ldBVx x) := of_register rfl

theorem ldMemIVx (x : Reg) : Statement (.ldMemIVx x) := of_register rfl

theorem ldVxMemI (x : Reg) : Statement (.ldVxMemI x) := of_register rfl

end Laws.OperandsFit

end Sys2Proof
end

