-- ==== Sys2Proof/Tests/Slice0.lean ====
section
/-! SUPPORT. Tests of the model, each a small theorem by evaluation. The expected values are those of
spec/95_test_vectors.md and spec/96_test_vectors_part2.md (the ids in the comments), or counted from the rule named;
then, for every obligation with hypotheses, a witness that meets them, its clauses at the ends of their ranges. -/

namespace Sys2Proof.Tests

open Sys2Proof.Machine

/-! ### Helpers -/

/-- The launch state with one instruction word at `0x200` (spec/95_test_vectors.md section 0). -/
def launch (word : Nat) : State := State.reset.withFetchWord 16 word

/-- With general registers set. -/
def regs (s : State) (values : List (Reg × Byte)) : State := values.foldl (fun t p => t.setReg p.1 p.2) s

/-- With bytes in memory from an address on. -/
def bytes (s : State) (a : Nat) (bs : List Byte) : State := { s with mem := s.mem.writeBytes a bs }

/-- With one pixel set. -/
def lit (s : State) (y : Fin 32) (x : Fin 64) : State := { s with fb := Frame.toggle s.fb y x }

/-- A part of the state after a step that completes. -/
def after {α : Type} (s : State) (part : State → α) : Option α :=
  match step s with
  | .next t => some (part t)
  | .fault _ => none
  | .refused _ => none

/-- The fault of a step that does not complete. -/
def faultOf (s : State) : Option Fault :=
  match step s with
  | .next _ => none
  | .fault f => some f
  | .refused _ => none

/-- The columns of the set pixels of one row. -/
def columns (s : State) (y : Fin 32) : List (Fin 64) := (List.finRange 64).filter fun x => s.fb[y][x]

/-! ### Well-formedness: each check refuses an ill-formed term -/

theorem test_register_16_is_ill_formed : (Operand.register 16).wellFormed = false := by decide
theorem test_register_15_is_well_formed : (Operand.register 15).wellFormed = true := by decide
theorem test_byte_256_is_ill_formed : (Operand.byte 256).wellFormed = false := by decide
theorem test_address_4096_is_ill_formed : (Operand.address 4096).wellFormed = false := by decide
theorem test_height_16_is_ill_formed : (Operand.height 16).wellFormed = false := by decide
theorem test_row_with_foreign_mask_is_ill_formed :
    (DecodeRow.mk 0xFF00 0x1200 fun _ => .cls).wellFormed = false := by decide
theorem test_row_with_pattern_outside_mask_is_ill_formed :
    (DecodeRow.mk 0xF000 0x1200 fun _ => .cls).wellFormed = false := by decide
theorem test_overlapping_rows_are_not_disjoint :
    (rowA 0x8000 .jpNnn).disjoint (rowXY 0x8004 .addVxVy) = false := by decide
theorem test_instruction_is_well_formed : (Instr.drwVxVyN 15 15 15).wellFormed = true := by decide

/-! ### Decoding: a word of every instruction (T-DEC) -/

theorem test_decode_flow :
    decode 0x00E0 = .ok .cls ∧ decode 0x00EE = .ok .ret ∧ decode 0x1FFF = .ok (.jpNnn 0xFFF) ∧
    decode 0x2000 = .ok (.callNnn 0x000) ∧ decode 0xB123 = .ok (.jpV0Nnn 0x123) := by decide
theorem test_decode_skips :
    decode 0x3AFF = .ok (.seVxKk 10 0xFF) ∧ decode 0x4B00 = .ok (.sneVxKk 11 0x00) ∧
    decode 0x5AB0 = .ok (.seVxVy 10 11) ∧ decode 0x9AB0 = .ok (.sneVxVy 10 11) ∧
    decode 0xE19E = .ok (.skpVx 1) ∧ decode 0xE1A1 = .ok (.sknpVx 1) := by decide
theorem test_decode_loads :
    decode 0x6F01 = .ok (.ldVxKk 15 0x01) ∧ decode 0x7FFF = .ok (.addVxKk 15 0xFF) ∧
    decode 0x8AB0 = .ok (.ldVxVy 10 11) := by decide
theorem test_decode_alu :
    decode 0x8AB1 = .ok (.orVxVy 10 11) ∧ decode 0x8AB2 = .ok (.andVxVy 10 11) ∧
    decode 0x8AB3 = .ok (.xorVxVy 10 11) ∧ decode 0x8AB4 = .ok (.addVxVy 10 11) ∧
    decode 0x8AB5 = .ok (.subVxVy 10 11) ∧ decode 0x8AB6 = .ok (.shrVx 10 11) ∧
    decode 0x8AB7 = .ok (.subnVxVy 10 11) ∧ decode 0x8ABE = .ok (.shlVx 10 11) := by decide
theorem test_decode_random_draw :
    decode 0xC1F0 = .ok (.rndVxKk 1 0xF0) ∧ decode 0xD12F = .ok (.drwVxVyN 1 2 15) ∧
    decode 0xD120 = .ok (.drwVxVyN 1 2 0) := by decide
theorem test_decode_index :
    decode 0xA123 = .ok (.ldINnn 0x123) ∧ decode 0xF11E = .ok (.addIVx 1) ∧ decode 0xF129 = .ok (.ldFVx 1) ∧
    decode 0xF133 = .ok (.ldBVx 1) ∧ decode 0xF155 = .ok (.ldMemIVx 1) ∧ decode 0xF165 = .ok (.ldVxMemI 1) := by
  decide
theorem test_decode_timers :
    decode 0xF107 = .ok (.ldVxDt 1) ∧ decode 0xF10A = .ok (.ldVxK 1) ∧ decode 0xF115 = .ok (.ldDtVx 1) ∧
    decode 0xF118 = .ok (.ldStVx 1) := by decide
/-- T-DEC-3 to 8, 14, 15, 26 to 28, 30, 32, 40 to 42, 52 to 57. -/
theorem test_decode_unknown :
    (([0x0000, 0x00E1, 0x00FE, 0x00C1, 0x0123, 0x0FFF, 0x5AB1, 0x5ABF, 0x8AB8, 0x8AB9, 0x8ABD, 0x8ABF, 0x9AB5,
      0xE19F, 0xE000, 0xE1A0, 0xF100, 0xF1FF, 0xF130, 0xF175, 0xF185, 0xFFFF] : List Word).all
      fun w => decide (decode w = .error (.unknownInstruction w))) = true := by rfl
theorem test_decode_of_bytes : decode (wordOfBytes 0xD1 0x2F) = .ok (.drwVxVyN 1 2 15) := by decide
theorem test_decode_table_word : decodeTableWord 16 0x8AB4 = some (.addVxVy 10 11) := by decide
theorem test_encode_words :
    encode (.seVxKk 10 0xFF) = 0x3AFF ∧ encode (.drwVxVyN 1 2 15) = 0xD12F ∧ encode (.ldINnn 0x123) = 0xA123 ∧
    encode (.shlVx 10 0) = 0x8A0E ∧ encode (.ldVxMemI 1) = 0xF165 ∧ encode (.sneVxVy 10 11) = 0x9AB0 := by decide

/-! ### Control transfer (T-FLOW) -/

/-- T-FLOW-2. -/
theorem test_jp_to_itself : after { launch 0x1200 with dt := 3 } (fun t => (t.dt, t.pc)) = some (2, 0x200) := by decide
/-- T-FLOW-6. -/
theorem test_call_sixteenth : after { (bytes (launch 0x0000) 0x202 [0x2A, 0xBC]) with sp := 15, pc := 0x202 }
    (fun t => (t.sp, t.stack[15], t.pc)) = some (16, 0x202, 0xABC) := by decide
/-- T-FLOW-7. -/
theorem test_call_seventeenth : faultOf { (bytes (launch 0x0000) 0x202 [0x2A, 0xBC]) with sp := 16, pc := 0x202 } = some (.stackOverflow 0x202) := by decide
/-- T-FLOW-11, its first step. -/
theorem test_ret_past_the_end : after { launch 0x00EE with sp := 1, stack := State.reset.stack.set 0 0xFFE }
    (fun t => (t.sp, t.stack[0], t.pc)) = some (0, 0xFFE, 0x1000) := by decide
/-- T-FLOW-10. -/
theorem test_ret_on_empty : faultOf (launch 0x00EE) = some (.stackUnderflow 0x200) := by decide
/-- T-FLOW-13. -/
theorem test_jp_v0_ignores_x : after (regs (launch 0xB300) [(0, 0x02), (3, 0x50)]) (·.pc) = some 0x302 := by decide
/-- T-FLOW-14, its first step. -/
theorem test_jp_v0_not_reduced : after (regs (launch 0xBFFF) [(0, 0xFF)]) (·.pc) = some 0x10FE := by decide
/-- T-FLOW-16, 17. -/
theorem test_se_byte : after (regs (launch 0x332A) [(3, 0x2A)]) (·.pc) = some 0x204 ∧
    after (regs (launch 0x332A) [(3, 0x2B)]) (·.pc) = some 0x202 := by decide
/-- T-FLOW-18, 19. -/
theorem test_sne_byte : after (regs (launch 0x432A) [(3, 0x2A)]) (·.pc) = some 0x202 ∧
    after (launch 0x432A) (·.pc) = some 0x204 := by decide
/-- T-FLOW-20, 21. -/
theorem test_se_register : after (regs (launch 0x5120) [(1, 7), (2, 7)]) (·.pc) = some 0x204 ∧
    after (regs (launch 0x5120) [(1, 7), (2, 8)]) (·.pc) = some 0x202 := by decide
/-- T-FLOW-23, 24. -/
theorem test_sne_register : after (regs (launch 0x9120) [(1, 7), (2, 8)]) (·.pc) = some 0x204 ∧
    after (regs (launch 0x9120) [(1, 7), (2, 7)]) (·.pc) = some 0x202 := by decide

/-! ### Arithmetic (T-ALU) -/

/-- T-ALU-2. -/
theorem test_ld_byte : after (launch 0x6F77) (fun t => (t.v[15], t.pc)) = some (0x77, 0x202) := by decide
/-- T-ALU-4. -/
theorem test_add_byte_wraps : after (regs (launch 0x7203) [(2, 0xFE), (15, 0x5A)])
    (fun t => (t.v[2], t.v[15])) = some (0x01, 0x5A) := by decide
/-- T-ALU-8. -/
theorem test_ld_register : after (regs (launch 0x8140) [(4, 0x33)]) (fun t => (t.v[1], t.v[4])) = some (0x33, 0x33) := by
  decide
/-- T-ALU-11. -/
theorem test_or : after (regs (launch 0x8121) [(1, 0xF0), (2, 0x0F), (15, 0x5A)]) (fun t => (t.v[1], t.v[15])) =
    some (0xFF, 0x5A) := by decide
/-- T-ALU-12. -/
theorem test_and : after (regs (launch 0x8122) [(1, 0xF3), (2, 0x3F), (15, 0x5A)]) (fun t => (t.v[1], t.v[15])) =
    some (0x33, 0x5A) := by decide
/-- T-ALU-13. -/
theorem test_xor : after (regs (launch 0x8123) [(1, 0xFF), (2, 0x0F), (15, 0x5A)]) (fun t => (t.v[1], t.v[15])) =
    some (0xF0, 0x5A) := by decide
/-- X3a, X3b. -/
theorem test_add : after (regs (launch 0x8124) [(1, 0x12), (2, 0xFF)]) (fun t => (t.v[1], t.v[15])) =
    some (0x11, 1) ∧ after (regs (launch 0x8124) [(1, 0x11), (2, 0xAA), (15, 1)]) (fun t => (t.v[1], t.v[15])) =
    some (0xBB, 0) := by decide
/-- T-ALU-22, 25. -/
theorem test_add_flag_last : after (regs (launch 0x8F14) [(15, 0xF0), (1, 0x20)]) (·.v[15]) = some 1 ∧
    after (regs (launch 0x8FF4) [(15, 0x80)]) (·.v[15]) = some 1 := by decide
/-- X4a, X4b. -/
theorem test_sub : after (regs (launch 0x8125) [(1, 0xAA), (2, 0x11)]) (fun t => (t.v[1], t.v[15])) =
    some (0x99, 1) ∧ after (regs (launch 0x8125) [(1, 0x10), (2, 0x22), (15, 1)]) (fun t => (t.v[1], t.v[15])) =
    some (0xEE, 0) := by decide
/-- T-ALU-26, 31. -/
theorem test_sub_equal : after (regs (launch 0x8125) [(1, 5), (2, 5), (15, 1)]) (fun t => (t.v[1], t.v[15])) =
    some (0, 0) ∧ after (regs (launch 0x8F15) [(15, 5), (1, 3)]) (·.v[15]) = some 1 := by decide
/-- T-ALU-34, 36. -/
theorem test_subn : after (regs (launch 0x8127) [(1, 0x11), (2, 0xAA)]) (fun t => (t.v[1], t.v[2], t.v[15])) =
    some (0x99, 0xAA, 1) ∧ after (regs (launch 0x8127) [(1, 5), (2, 5), (15, 1)]) (fun t => (t.v[1], t.v[15])) =
    some (0, 0) := by decide
/-- T-ALU-45, 47. -/
theorem test_shr : after (regs (launch 0x8346) [(3, 4), (4, 0xFF), (15, 1)]) (fun t => (t.v[3], t.v[4], t.v[15])) =
    some (2, 0xFF, 0) ∧ after (regs (launch 0x8F06) [(15, 2)]) (·.v[15]) = some 0 := by decide
/-- T-ALU-48, 52. -/
theorem test_shl : after (regs (launch 0x830E) [(3, 0x81)]) (fun t => (t.v[3], t.v[15])) = some (2, 1) ∧
    after (regs (launch 0x834E) [(3, 0x40), (4, 0xFF), (15, 1)]) (fun t => (t.v[3], t.v[4], t.v[15])) =
    some (0x80, 0xFF, 0) := by decide
/-- One free byte consumed per `RND` (spec/41_alu.md R82). -/
theorem test_rnd_consumes : after (launch 0xC5FF) (fun t => (t.draws, t.pc)) = some (1, 0x202) := by decide
/-- T-ALU-55, 58, with the random byte given. -/
theorem test_rnd_given : State.finishRandom State.reset 5 0x0F 0xA7 =
    .next { State.reset with v := State.reset.v.set 5 0x07, pc := 0x202, draws := 1 } ∧
    State.finishRandom State.reset 15 0xFF 0x5A =
    .next { State.reset with v := State.reset.v.set 15 0x5A, pc := 0x202, draws := 1 } := ⟨rfl, rfl⟩

/-! ### Index register and memory (T-IDX) -/

/-- T-IDX-2. -/
theorem test_ld_i : after { launch 0xAFFF with i := 0x1234 } (fun t => (t.i, t.pc)) = some (0xFFF, 0x202) := by decide
/-- T-IDX-5, 6. -/
theorem test_add_i : after { (regs (launch 0xF21E) [(2, 1)]) with i := 0xFFF } (fun t => (t.i, t.v[15])) =
    some (0x1000, 1) ∧ after { (regs (launch 0xF21E) [(2, 1)]) with i := 0xFFFF } (fun t => (t.i, t.v[15])) =
    some (0, 1) := by decide
/-- T-IDX-7, 10. -/
theorem test_add_i_no_overflow : after { (regs (launch 0xF21E) [(2, 0xFF), (15, 1)]) with i := 0xF00 }
    (fun t => (t.i, t.v[15])) = some (0xFFF, 0) ∧
    after { (regs (launch 0xFF1E) [(15, 1)]) with i := 0xFFE } (fun t => (t.i, t.v[15])) = some (0xFFF, 0) := by decide
/-- T-IDX-14, 16. -/
theorem test_ld_f : after (regs (launch 0xF129) [(1, 0x0F)]) (·.i) = some 0x4B ∧
    after (regs (launch 0xF129) [(1, 0xFF)]) (·.i) = some 0x4FB := by decide
/-- T-IDX-24. -/
theorem test_bcd_at_the_top : after { (regs (launch 0xF033) [(0, 0xFE)]) with i := 0xFFD }
    (fun t => (t.mem.read 0xFFD, t.mem.read 0xFFE, t.mem.read 0xFFF, t.i)) = some (2, 5, 4, 0xFFD) := by decide
/-- T-IDX-25, 26. -/
theorem test_bcd_faults : faultOf { (regs (launch 0xF033) [(0, 0xFE)]) with i := 0xFFE } = some (.addressOverflow 0x1000) ∧ faultOf { (regs (launch 0xF033) [(0, 0xFE)]) with i := 0x1234 } = some (.addressOverflow 0x1234) := by decide
/-- T-IDX-27. -/
theorem test_dump : after { (regs (launch 0xF155) [(0, 0x11), (1, 0x22), (2, 0x33)]) with i := 0x400 }
    (fun t => (t.mem.read 0x3FF, t.mem.read 0x400, t.mem.read 0x401, t.mem.read 0x402, t.i)) =
    some (0, 0x11, 0x22, 0, 0x400) := by decide
/-- T-IDX-30. -/
theorem test_dump_faults : faultOf { (regs (launch 0xFF55) [(0, 0x10), (15, 0x1F)]) with i := 0xFF1 } = some (.addressOverflow 0x1000) := by decide
/-- T-IDX-34: the first sixteen bytes of the font, `VF` included. -/
theorem test_load_font : after (launch 0xFF65) (fun t => (t.v.toList, t.i)) =
    some ([0xF0, 0x90, 0x90, 0x90, 0xF0, 0x20, 0x60, 0x20, 0x20, 0x70, 0xF0, 0x10, 0xF0, 0x80, 0xF0, 0xF0], 0) := by
  decide
/-- T-IDX-32. -/
theorem test_load_leaves_above : after { (bytes (regs (launch 0xF265) [(3, 0x99)]) 0x300 [2, 5, 4, 0x77]) with i := 0x300 }
    (fun t => (t.v[0], t.v[1], t.v[2], t.v[3])) = some (2, 5, 4, 0x99) := by decide
/-- T-IDX-23: the font has no protection, and a byte back at its reset contents is no longer listed. -/
theorem test_store_over_font : after (regs (launch 0xF033) [(0, 0x7B)]) (fun t => (t.mem.read 0, t.mem.read 2)) =
    some (1, 3) ∧ (Memory.write [(0, 1), (2, 3)] 0 0xF0) = [(2, 3)] := by decide

/-! ### Frame buffer (T-DRW) -/

/-- T-DRW-4: the sprite wraps both ways. -/
theorem test_draw_wraps : after (regs (launch 0xD015) [(0, 0x3E), (1, 0x1E)])
    (fun t => (columns t 0, columns t 2, columns t 30, columns t 31, t.v[15])) =
    some ([1, 62], [0, 1, 62, 63], [0, 1, 62, 63], [1, 62], 0) := by decide
/-- T-DRW-11. -/
theorem test_draw_collides : after (lit (launch 0xD015) 0 0)
    (fun t => (columns t 0, columns t 1, columns t 5, t.v[15], t.needsRedraw)) =
    some ([1, 2, 3], [0, 3], [], 1, true) := by decide
/-- T-DRW-17. -/
theorem test_draw_faults : faultOf { launch 0xD015 with i := 0xFFC } = some (.addressOverflow 0x1000) := by decide
/-- T-DRW-9. -/
theorem test_draw_nothing : after { (regs (launch 0xD010) [(15, 0x5A)]) with i := 0x1000 }
    (fun t => (t.v[15], t.needsRedraw, t.fb)) = some (0, true, blankFrame) := by decide
/-- T-DRW-19. -/
theorem test_cls : after (lit (regs (launch 0x00E0) [(15, 0x5A)]) 31 63) (fun t => (columns t 31, t.v[15], t.needsRedraw)) =
    some ([], 0x5A, true) := by decide

/-! ### Keys and timers (T-KEY, T-TMR) -/

/-- T-KEY-1, 3. -/
theorem test_skp : after ((regs (launch 0xE49E) [(4, 10)]).setKey 10 true) (·.pc) = some 0x204 ∧
    after ((regs (launch 0xE49E) [(4, 10)]).setKey 11 true) (·.pc) = some 0x202 := by decide
/-- T-KEY-8. -/
theorem test_skp_faults : faultOf ((regs (launch 0xE49E) [(4, 0x10)]).setKey 0 true) = some (.keyIndexOutOfRange 0x10) := by decide
/-- T-KEY-4, 5. -/
theorem test_sknp : after (regs (launch 0xE4A1) [(4, 10)]) (·.pc) = some 0x204 ∧
    after ((regs (launch 0xE4A1) [(4, 10)]).setKey 10 true) (·.pc) = some 0x202 := by decide
/-- T-KEY-9. -/
theorem test_sknp_faults : faultOf (regs (launch 0xE4A1) [(4, 0xFF)]) = some (.keyIndexOutOfRange 0xFF) := by decide
/-- T-KEY-10. -/
theorem test_key_wait_stalls : after { launch 0xF30A with dt := 2, st := 1 } (fun t => (t.dt, t.st, t.pc, t.v[3])) =
    some (1, 0, 0x200, 0) := by decide
/-- T-KEY-12. -/
theorem test_key_wait_least : after (((launch 0xF30A).setKey 9 true).setKey 3 true) (fun t => (t.v[3], t.pc)) =
    some (3, 0x202) := by decide
/-- T-TMR-1. -/
theorem test_read_dt : after { launch 0xF207 with dt := 5 } (fun t => (t.v[2], t.dt)) = some (5, 4) := by decide
/-- T-TMR-4, 6. -/
theorem test_set_dt : after (regs (launch 0xF215) [(2, 5)]) (·.dt) = some 4 ∧
    after { launch 0xF215 with dt := 9 } (·.dt) = some 0 := by decide
/-- T-TMR-8, 9. -/
theorem test_set_st : after (regs (launch 0xF218) [(2, 3)]) (fun t => (t.st, t.soundTimerActive)) = some (2, true) ∧
    after (regs (launch 0xF218) [(2, 1)]) (fun t => (t.st, t.soundTimerActive)) = some (0, false) := by decide

/-! ### Fetch, faults, host (T-FLT, T-RST, X1) -/

/-- T-FLT-1: with nothing loaded the first step faults. -/
theorem test_nothing_loaded : faultOf State.reset = some (.unknownInstruction 0x0000) := by decide
/-- T-FLT-5: the last legal fetch address. -/
theorem test_fetch_at_FFE : after { (bytes State.reset 0xFFE [0x6A, 0x01]) with pc := 0xFFE } (fun t => (t.v[10], t.pc)) =
    some (1, 0x1000) := by decide
/-- T-FLT-7, 8. -/
theorem test_fetch_faults : faultOf { (bytes State.reset 0xFFF [0x60]) with pc := 0xFFF } = some (.addressOverflow 0xFFF) ∧
    faultOf { State.reset with pc := 0xFFFF } = some (.addressOverflow 0xFFFF) := by decide
/-- T-FLT-12: the font is executable. -/
theorem test_font_executes : after { State.reset with pc := 5 } (fun t => (t.sp, t.stack[0], t.pc)) =
    some (1, 5, 0x60) := by decide
/-- The codes and the `info` of spec/60_exceptions.md R110. -/
theorem test_fault_codes : (Fault.unknownInstruction 0x8128).code = 1 ∧ (Fault.addressOverflow 0x1000).code = 2 ∧
    (Fault.stackUnderflow 0x200).code = 3 ∧ (Fault.stackOverflow 0x202).code = 4 ∧
    (Fault.keyIndexOutOfRange 0xFF).code = 5 ∧ (Fault.keyIndexOutOfRange 0xFF).info = 0xFF ∧
    (Fault.unknownInstruction 0x8128).info = 0x8128 := by decide
/-- T-RST-2. -/
theorem test_session : ((Session.start.run [.restart, .load [0x60, 0x2A], .step]).1,
    (Session.start.run [.restart, .load [0x60, 0x2A], .step]).2.state.v[0]) = ([.done, .done, .ok], 0x2A) := by decide
/-- X7, as a session: a stall, a key, the step that takes it. -/
theorem test_key_session :
    (Session.start.run [.load [0xF3, 0x0A], .step, .setKey 7 true, .step]).2.state.v[3] = 7 ∧
    (Session.start.run [.load [0xF3, 0x0A], .step, .setKey 7 true, .step]).2.state.pc = 0x202 := by decide
/-- No load rescues a faulted session, `initialize` does (spec/60_exceptions.md R113, R124). -/
theorem test_no_load_after_a_fault :
    (Session.start.run [.step, .load [0x60, 0x2A], .step, .restart, .load [0x60, 0x2A], .step]).1 =
    [.fault (.unknownInstruction 0), .notAllowed, .fault (.unknownInstruction 0), .done, .done, .ok] := by decide
/-- One load for each `initialize` (spec/92_eei_decisions.md D29). -/
theorem test_one_load : (Session.start.run [.load [0x00, 0xE0], .load [0x60, 0x2A], .step]).1 =
    [.done, .notAllowed, .ok] := by decide
/-- A failed load ends the start of the session (spec/60_exceptions.md R128). -/
theorem test_failed_load_is_fatal : ({ Session.start with phase := .startFailed } : Session).run
    [.load [0x60, 0x2A], .step, .setKey 7 true] =
    ([.notAllowed, .notAllowed, .notAllowed], { Session.start with phase := .startFailed }) := by decide
theorem test_place_outside_stores_nothing :
    State.withFetchWord { State.reset with pc := 0xFFF } 16 0x00E0 = { State.reset with pc := 0xFFF } := by decide

/-! ### Witnesses: the hypotheses of the obligations can be met -/

theorem witness_EncodeInvertsDecode : decode 0x00E0 = .ok .cls ∧ decode 0xFF65 = .ok (.ldVxMemI 15) := by decide

/-- At the last address an instruction can be fetched from. -/
def atTop : State := { (bytes State.reset 0xFFE [0x6A, 0x01]) with pc := 0xFFE }

theorem witness_StepRunsDecoded : atTop.pc.toNat ≤ 0xFFE ∧
    decode (atTop.mem.read atTop.pc.toNat ++ atTop.mem.read (atTop.pc.toNat + 1)) = .ok (.ldVxKk 10 1) ∧
    (Instr.ldVxKk 10 1).wellFormed = true ∧
    exec (.ldVxKk 10 1) atTop = .next { atTop with v := atTop.v.set 10 1, pc := 0x1000 } :=
  ⟨by decide, by decide, by decide, rfl⟩
theorem witness_StepRunsDecoded_fault : (launch 0x00EE).pc.toNat ≤ 0xFFE ∧
    decode ((launch 0x00EE).mem.read 0x200 ++ (launch 0x00EE).mem.read 0x201) = .ok .ret ∧
    Instr.ret.wellFormed = true ∧ exec .ret (launch 0x00EE) = .fault (.stackUnderflow 0x200) :=
  ⟨by decide, by decide, by decide, rfl⟩
theorem witness_FetchAndDecodeFaults : 0xFFE < ({ State.reset with pc := 0xFFF } : State).pc.toNat := by decide
theorem witness_FetchAndDecodeFaults_unknown : ({ State.reset with pc := 0xFFE } : State).pc.toNat ≤ 0xFFE ∧
    (0x0000 : Word).toNat = (State.reset.mem.read 0xFFE).toNat * 256 + (State.reset.mem.read 0xFFF).toNat ∧
    ∀ i, decode 0x0000 ≠ .ok i := by
  refine ⟨by decide, by decide, fun i h => ?_⟩
  rw [show decode 0x0000 = .error (.unknownInstruction 0x0000) by decide] at h
  cases h
theorem witness_StepDecrementsTimers : (regs (launch 0xF215) [(2, 5)]).fetchInstr = .ok (.ldDtVx 2) ∧
    ∃ t, step (regs (launch 0xF215) [(2, 5)]) = .next t := ⟨by decide, _, rfl⟩
theorem witness_FaultRepeats : step (launch 0x00EE) = .fault (.stackUnderflow 0x200) ∧
    Phase.initialized ≠ .startFailed ∧ Phase.stepping ≠ .startFailed := ⟨rfl, by decide, by decide⟩
theorem witness_PcAfterEveryInstruction : (launch 0x2300).fetchInstr = .ok (.callNnn 0x300) ∧
    (∃ t, step (launch 0x2300) = .next t) ∧ (∃ t, exec (.callNnn 0x300) (launch 0x2300) = .next t) ∧
    step State.reset = .fault (.unknownInstruction 0) := ⟨by decide, ⟨_, rfl⟩, ⟨_, rfl⟩, rfl⟩
theorem witness_CallPushesOwnAddress : ({ State.reset with sp := 15 } : State).sp.val < 16 := by decide
theorem witness_RetResumesAfterCall : 0 < ({ State.reset with sp := 1 } : State).sp.val ∧
    0 < ({ State.reset with sp := 16 } : State).sp.val := by decide
theorem witness_StackBoundsFault : State.reset.sp.val = 0 ∧ ({ State.reset with sp := 16 } : State).sp.val = 16 := by
  decide

/-- A call with one free slot, its callee one instruction and a return. -/
def caller : State := { (bytes (launch 0x2300) 0x300 [0x60, 0x00, 0x00, 0xEE]) with sp := 15 }

theorem witness_SubroutineRoundTrip : ∃ t u r : State, caller.fetchInstr = .ok (.callNnn 0x300) ∧ step caller = .next t ∧
    StaysAtDepth (caller.sp.val + 1) t u ∧ u.sp.val = caller.sp.val + 1 ∧ u.fetchInstr = .ok .ret ∧ step u = .next r :=
  ⟨_, _, _, by decide, rfl, .more _ _ _ (by decide) rfl (.done _ (by decide)), by decide, by decide, rfl⟩
theorem witness_IdleLoopChangesNothing : (launch 0x1200).Idle := ⟨⟨0x200, by decide, by decide⟩, by decide, by decide⟩
theorem witness_LogicLeavesFlag : (15 : Reg) ≠ 14 ∧ (0 : Nat) < 8 ∧ (7 : Nat) < 8 := by decide
theorem witness_RandomUnderMask : (0x0F : Byte).getLsbD 7 = false ∧ (0x0F : Byte).getLsbD 4 = false := by decide
theorem witness_BcdStoresDigits : ({ State.reset with i := 0xFFD } : State).i.toNat + 2 ≤ 0xFFF ∧
    State.reset.i.toNat + 2 ≤ 0xFFF := by decide
theorem witness_DumpStoresRegisters : ({ State.reset with i := 0xFF0 } : State).i.toNat + (15 : Reg).val ≤ 0xFFF ∧
    ({ State.reset with i := 0xFFF } : State).i.toNat + (0 : Reg).val ≤ 0xFFF := by decide
theorem witness_LoadFillsRegisters : ({ State.reset with i := 0xFF0 } : State).i.toNat + (15 : Reg).val ≤ 0xFFF ∧
    (14 : Reg).val < (15 : Reg).val := by decide
theorem witness_DumpThenLoadRestores : ∃ t u : State, exec (.ldMemIVx 15) { State.reset with i := 0xFF0 } = .next t ∧
    u.i = 0xFF0 ∧ ∀ a : Nat, 0xFF0 ≤ a → a ≤ 0xFFF → u.mem.read a = t.mem.read a :=
  ⟨_, { State.reset with i := 0xFF0 }, rfl, rfl, fun _ _ _ => rfl⟩
theorem witness_StoreIsFetchedAtOnce : ∃ s : State, s.pc.toNat + 3 ≤ 0xFFF ∧ s.i = s.pc + 2 ∧ 1 ≤ (1 : Reg).val ∧
    s.i.toNat + (1 : Reg).val ≤ 0xFFF := ⟨{ State.reset with pc := 0xFFC, i := 0xFFE }, by decide⟩

/-- The causes at the ends of their ranges (spec/60_exceptions.md R110; T-IDX-28 to 31, T-DRW-9, 16 to 18, T-KEY-7, 8). -/
theorem witness_ExecFaultsExactly :
    execFault { State.reset with i := 0xFFF } (.ldMemIVx 0) = none ∧
    execFault { State.reset with i := 0x1000 } (.ldMemIVx 0) = some (.addressOverflow 0x1000) ∧
    execFault { State.reset with i := 0xFF1 } (.ldVxMemI 15) = some (.addressOverflow 0x1000) ∧
    execFault { State.reset with i := 0xFFD } (.ldBVx 0) = none ∧
    execFault { State.reset with i := 0xFFE } (.ldBVx 0) = some (.addressOverflow 0x1000) ∧
    execFault { State.reset with i := 0x1000 } (.drwVxVyN 0 1 0) = none ∧
    execFault { State.reset with i := 0xFFB } (.drwVxVyN 0 1 5) = none ∧
    execFault { State.reset with i := 0x2000 } (.drwVxVyN 0 1 1) = some (.addressOverflow 0x2000) ∧
    execFault (regs State.reset [(4, 0x0F)]) (.skpVx 4) = none ∧
    execFault (regs State.reset [(4, 0x10)]) (.sknpVx 4) = some (.keyIndexOutOfRange 0x10) := by decide
theorem witness_DrawXorsSprite : ((0 : Height).val = 0 ∨ ({ State.reset with i := 0x1000 } : State).i.toNat + 0 ≤ 0x1000) ∧
    ((5 : Height).val = 0 ∨ ({ State.reset with i := 0xFFB } : State).i.toNat + 5 ≤ 0x1000) := by decide
/-- Glyph 0 at column 62, row 30 covers row 0, column 1, and not row 0, column 0 (T-DRW-4). -/
theorem witness_DrawXorsSprite_covers : SpriteCovers State.reset.mem 0 5 62 30 0 1 ∧
    ¬ SpriteCovers State.reset.mem 0 5 62 30 0 0 := by
  refine ⟨⟨2, 3, by decide⟩, ?_⟩
  rintro ⟨r, c, hr, hc, hb, hy, hx⟩
  have h2 : r = 2 := by simp at hy; omega
  have h3 : c = 2 := by simp at hx; omega
  subst h2 h3
  exact absurd hb (by decide)
/-- A set pixel under a 1 bit, and a blank screen. -/
theorem witness_DrawXorsSprite_collision : (∃ py px, SpriteCovers State.reset.mem 0 5 0 0 py px ∧
    (lit State.reset 0 0).fb[py][px] = true) ∧
    ∀ py px, SpriteCovers State.reset.mem 0 5 0 0 py px → State.reset.fb[py][px] = false :=
  ⟨⟨0, 0, ⟨0, 0, by decide⟩, by decide⟩, fun py px _ => by simp [State.reset, blankFrame]⟩
theorem witness_DrawTwiceRestores : (14 : Reg) ≠ 15 ∧ ∃ t, exec (.drwVxVyN 14 14 15) State.reset = .next t :=
  ⟨by decide, _, rfl⟩
theorem witness_FrameBufferAccess : (∃ t, exec (.ldVxKk 0 0) State.reset = .next t) ∧ Instr.ldVxKk 0 0 ≠ .cls ∧
    (∀ x y n, Instr.ldVxKk 0 0 ≠ .drwVxVyN x y n) ∧
    ({ launch 0x6000 with needsRedraw := true } : State).needsRedraw = true ∧
    ∃ t, step { launch 0x6000 with needsRedraw := true } = .next t :=
  ⟨⟨_, rfl⟩, by decide, by decide, rfl, _, rfl⟩
theorem witness_SkipsOnKey : (regs State.reset [(4, 15)]).v[(4 : Reg)].toNat = (15 : Key).val ∧
    State.reset.v[(4 : Reg)].toNat = (0 : Key).val := by decide
theorem witness_KeyWaitStallsOrStores : (∀ k : Key, State.reset.key[k] = false) ∧
    (State.reset.setKey 15 true).key[(15 : Key)] = true ∧
    (∀ j : Key, j < 15 → (State.reset.setKey 15 true).key[j] = false) ∧
    (State.reset.setKey 0 true).key[(0 : Key)] = true := by decide
theorem witness_TimersRunDown : ∃ t u : State, step (regs (launch 0xF215) [(2, 5)]) = .next t ∧
    (regs (launch 0xF215) [(2, 5)]).fetchInstr = .ok (.ldDtVx 2) ∧
    StepsWithout (fun i => ∃ y, i = .ldDtVx y) 0 t u := ⟨_, _, rfl, by decide, .done _⟩
/-- `LD ST, V2` then `LD V0, 0x00`: one step after the one that set the timer. -/
theorem witness_TimersRunDown_sound : ∃ t u : State,
    step (bytes (regs (launch 0xF218) [(2, 3)]) 0x202 [0x60, 0x00]) = .next t ∧
    (bytes (regs (launch 0xF218) [(2, 3)]) 0x202 [0x60, 0x00]).fetchInstr = .ok (.ldStVx 2) ∧
    StepsWithout (fun i => ∃ y, i = .ldStVx y) 1 t u :=
  ⟨_, _, rfl, by decide, .more _ _ _ _ (.ldVxKk 0 0) (by decide) (by simp) rfl (.done _)⟩
theorem witness_KeysComeFromHost : (∃ t, step (launch 0x6000) = .next t) ∧
    (∀ x, Instr.ldVxKk 0 0 ≠ .skpVx x ∧ Instr.ldVxKk 0 0 ≠ .sknpVx x ∧ Instr.ldVxKk 0 0 ≠ .ldVxK x) ∧
    (regs State.reset [(4, 15)]).v[(4 : Reg)].toNat = (15 : Key).val ∧
    (∃ t, exec (.skpVx 4) ((regs State.reset [(4, 15)]).setKey 15 true) = .next t) ∧
    (∃ t, exec (.skpVx 4) ((regs State.reset [(4, 15)]).setKey 15 false) = .next t) ∧
    (∃ t, exec (.sknpVx 4) ((regs State.reset [(4, 15)]).setKey 15 true) = .next t) ∧
    (∃ t, exec (.sknpVx 4) ((regs State.reset [(4, 15)]).setKey 15 false) = .next t) ∧
    (∃ t, exec (.ldVxK 4) (State.reset.setKey 15 true) = .next t) ∧
    (∀ k : Key, State.reset.key[k] = false) ∧ ∃ t, exec (.ldVxK 4) State.reset = .next t :=
  ⟨⟨_, rfl⟩, by decide, by decide, ⟨_, rfl⟩, ⟨_, rfl⟩, ⟨_, rfl⟩, ⟨_, rfl⟩, ⟨_, rfl⟩, by decide, _, rfl⟩
theorem witness_TimerAccess : (∃ t, exec (.ldVxDt 2) State.reset = .next t) ∧ (∀ x, Instr.ldVxKk 0 0 ≠ .ldVxDt x) ∧
    (∀ x, Instr.ldVxKk 0 0 ≠ .ldDtVx x) ∧ (∀ x, Instr.ldVxKk 0 0 ≠ .ldStVx x) ∧
    (launch 0x6000).fetchInstr = .ok (.ldVxKk 0 0) ∧ ∃ t, exec (.ldVxKk 0 0) (launch 0x6000) = .next t :=
  ⟨⟨_, rfl⟩, by decide, by decide, by decide, by decide, _, rfl⟩
theorem witness_RegisterWriters : (∃ t, exec (.addVxVy 14 13) State.reset = .next t) ∧
    isDestination 13 (.addVxVy 14 13) = false ∧ ¬ ((13 : Reg) = 15 ∧ writesFlag (.addVxVy 14 13) = true) ∧
    writesFlag (.addVxVy 14 13) = true ∧ isDestination 15 (.orVxVy 14 15) = false ∧
    ¬ ((15 : Reg) = 15 ∧ writesFlag (.orVxVy 14 15) = true) := ⟨⟨_, rfl⟩, by decide⟩
theorem witness_OnlyTheirInstructionsWrite : (∃ t, exec (.ldVxKk 0 0) State.reset = .next t) ∧
    (∀ nnn, Instr.ldVxKk 0 0 ≠ .ldINnn nnn) ∧ (∀ x, Instr.ldVxKk 0 0 ≠ .addIVx x ∧ Instr.ldVxKk 0 0 ≠ .ldFVx x) ∧
    (∀ nnn, Instr.ldVxKk 0 0 ≠ .callNnn nnn) ∧ Instr.ldVxKk 0 0 ≠ .ret ∧
    (∀ x, Instr.ldVxKk 0 0 ≠ .ldBVx x ∧ Instr.ldVxKk 0 0 ≠ .ldMemIVx x) ∧
    ∀ x kk, Instr.ldVxKk 0 0 ≠ .rndVxKk x kk :=
  ⟨⟨_, rfl⟩, by simp, by simp, by simp, by simp, by simp, by simp⟩
/-- From a state with the invariant and `PC` at its last fetchable value. -/
theorem witness_StepKeepsInvariant : atTop.Inv ∧ ∃ t, step atTop = .next t := ⟨by decide, _, rfl⟩
theorem witness_SessionKeepsInvariant : atTop.Inv := by decide
theorem witness_ResetValues : (79 : Nat) < 80 ∧ (80 : Nat) ≤ 80 ∧ Config.font[79]? = some 0x80 := by decide
theorem witness_MemoryReadsLastWrite : Memory.wf [] = true ∧ (0xFFF : Nat) < 0x1000 ∧
    Memory.wf (Memory.write [] 0xFFF 0xAA) = true ∧ Memory.wf (Memory.write (Memory.write [] 0xFFF 0) 0xFFF 0xAA) = true ∧
    ∀ a, (Memory.write [] 0xFFF 0xAA).read a = (Memory.write (Memory.write [] 0xFFF 0) 0xFFF 0xAA).read a :=
  ⟨by decide, by decide, by decide, by decide, fun _ => rfl⟩
theorem witness_LoadCopiesImage : 4096 - 0x200 < (List.replicate 3585 (0xFF : Byte)).length ∧
    (List.replicate 3584 (0xFF : Byte)).length ≤ 4096 - 0x200 ∧ ([] : List Byte).length ≤ 4096 - 0x200 := by
  simp only [List.length_replicate, List.length_nil]
  omega
theorem witness_SetKeyKeepsLastValue : (15 : Key) ≠ 0 ∧ HostAction.step ≠ .restart ∧
    ∀ k down, HostAction.step ≠ .setKey k down := by decide
theorem witness_RestartForgetsState : ([0x60, 0x2A] : List Byte).length ≤ 3584 ∧
    State.reset.load [0x60, 0x2A] = .ok { State.reset with mem := [(0x200, 0x60), (0x201, 0x2A)] } := by decide
/-- A load still allowed after a key, and no longer after a step. -/
theorem witness_HostActionsWhenAllowed : HostAction.restart ∉ [HostAction.setKey 7 true, .clearRedraw] ∧
    HostAction.restart ∉ [HostAction.step] ∧ Phase.stepping.allows (.load []) = false ∧
    Phase.startFailed.allows .step = false ∧ Session.start.phase = .initialized ∧
    ([] : List Byte).length ≤ 3584 ∧ Phase.loaded ≠ .startFailed := by decide
theorem witness_FaultLeftByRestartOnly : (Session.start.act .step).1 = .fault (.unknownInstruction 0) ∧
    HostAction.restart ∉ [HostAction.load [0x60, 0x2A], .setKey 7 true, .clearRedraw, .step] := by decide
theorem witness_FailedLoadEndsSession : Session.start.phase = .initialized ∧
    3584 < (List.replicate 3585 (0xFF : Byte)).length ∧
    HostAction.restart ∉ [HostAction.load [0x60, 0x2A], .step] := by
  refine ⟨rfl, ?_, by decide⟩
  rw [List.length_replicate]
  omega

end Sys2Proof.Tests
end

/-! ## The timers (spec/10_state.md R20)

A change made to the timers alone passes through an instruction unseen, unless the instruction is one of the three
timer moves and the change alters what that one moves. This one law gives both halves of R20: with a timer reset to a
given byte it says that the timer is not read, with a timer reset to the value it already has that it is not written. -/

namespace Sys2Proof.Machine

/-- The state with its delay timer changed by `f` and its sound timer by `g`, all else as it is. -/
def State.mapTimers (f g : Byte → Byte) (s : State) : State := { s with dt := f s.dt, st := g s.st }

section
variable (f g : Byte → Byte) (s : State)

/-! ### What the shared operations do with changed timers -/

@[simp] theorem State.reg_mapTimers (x : Reg) : (s.mapTimers f g).reg x = s.reg x := rfl
@[simp] theorem State.pc_mapTimers : (s.mapTimers f g).pc = s.pc := rfl
@[simp] theorem State.key_mapTimers : (s.mapTimers f g).key = s.key := rfl
@[simp] theorem State.base_mapTimers : (s.mapTimers f g).base = s.base := rfl
@[simp] theorem State.leastKeyDown_mapTimers : (s.mapTimers f g).leastKeyDown = s.leastKeyDown := rfl
@[simp] theorem State.checkRange_mapTimers (n : Nat) : (s.mapTimers f g).checkRange n = s.checkRange n := rfl

@[simp] theorem State.skipIf_mapTimers (c : Bool) : (s.mapTimers f g).skipIf c = (s.skipIf c).mapTimers f g := by
  cases c <;> rfl

@[simp] theorem State.push_mapTimers (w : Word) :
    (s.mapTimers f g).push w = (s.push w).map (State.mapTimers f g) := by
  by_cases room : s.sp.val < 16
  · rw [State.push_room s w room, State.push_room (s.mapTimers f g) w room]; rfl
  · rw [State.push_full s w (by omega), State.push_full (s.mapTimers f g) w (show s.sp.val = 16 by omega)]; rfl

@[simp] theorem State.pop_mapTimers :
    (s.mapTimers f g).pop = s.pop.map fun p => (p.1, p.2.mapTimers f g) := by
  by_cases live : 0 < s.sp.val
  · rw [State.pop_live s live, State.pop_live (s.mapTimers f g) live]; rfl
  · rw [State.pop_empty s (by omega), State.pop_empty (s.mapTimers f g) (show s.sp.val = 0 by omega)]; rfl

@[simp] theorem State.loadBytes_mapTimers (n a : Nat) : (s.mapTimers f g).loadBytes a n = s.loadBytes a n := by
  induction n generalizing a with
  | zero => rfl
  | succ n ih => simp only [State.loadBytes, ih]; rfl

@[simp] theorem State.storeBytes_mapTimers (bs : List Byte) (a : Nat) :
    (s.mapTimers f g).storeBytes a bs = (s.storeBytes a bs).map (State.mapTimers f g) := by
  induction bs generalizing s a with
  | nil => rfl
  | cons b bs ih =>
    simp only [State.storeBytes, State.memWrite]
    by_cases inside : a < Config.memSize
    · rw [if_pos inside, if_pos inside]
      exact ih { s with mem := s.mem.write a b } (a + 1)
    · rw [if_neg inside, if_neg inside]; rfl

@[simp] theorem State.storeFromIndex_mapTimers (bs : List Byte) :
    (s.mapTimers f g).storeFromIndex bs = mapNext (State.mapTimers f g) (s.storeFromIndex bs) := by
  simp only [State.storeFromIndex, State.checkRange_mapTimers, State.base_mapTimers, State.storeBytes_mapTimers]
  cases s.checkRange bs.length with
  | error e => rfl
  | ok _ => cases s.storeBytes s.base bs <;> rfl

end

/-! ### What the instructions do with changed timers -/

/-- An instruction does the same whatever is done to the timers, if a timer move moves the same byte. The cases are
those whose meaning branches on an operation that can stop, and the timer moves; every other meaning is one expression
over the untouched members. -/
theorem exec_mapTimers (f g : Byte → Byte) (s : State) (i : Instr)
    (reads : ∀ x, i = .ldVxDt x → f s.dt = s.dt) (setsDt : ∀ x, i = .ldDtVx x → f (s.reg x) = s.reg x)
    (setsSt : ∀ x, i = .ldStVx x → g (s.reg x) = s.reg x) :
    exec i (s.mapTimers f g) = mapNext (State.mapTimers f g) (exec i s) := by
  cases i with
  | ldVxDt x => exact congrArg (fun b => Host.Outcome.next ((s.mapTimers f g).setReg x b).advance) (reads x rfl)
  | ldDtVx x => exact congrArg (fun b => Host.Outcome.next { s.mapTimers f g with dt := b }.advance) (setsDt x rfl).symm
  | ldStVx x => exact congrArg (fun b => Host.Outcome.next { s.mapTimers f g with st := b }.advance) (setsSt x rfl).symm
  | ret =>
    simp only [exec, execRet, State.pop_mapTimers]
    cases s.pop <;> rfl
  | callNnn nnn =>
    simp only [exec, execCallNnn, State.push_mapTimers, State.pc_mapTimers]
    cases s.push s.pc <;> rfl
  | seVxKk x kk | sneVxKk x kk => exact congrArg Host.Outcome.next (State.skipIf_mapTimers f g s _)
  | seVxVy x y | sneVxVy x y => exact congrArg Host.Outcome.next (State.skipIf_mapTimers f g s _)
  | skpVx x =>
    simp only [exec, execSkpVx, State.reg_mapTimers, State.key_mapTimers, State.skipIf_mapTimers]
    cases keyOperand (s.reg x) <;> rfl
  | sknpVx x =>
    simp only [exec, execSknpVx, State.reg_mapTimers, State.key_mapTimers, State.skipIf_mapTimers]
    cases keyOperand (s.reg x) <;> rfl
  | ldVxK x =>
    simp only [exec, execLdVxK, State.leastKeyDown_mapTimers]
    cases s.leastKeyDown <;> rfl
  | ldBVx x | ldMemIVx x => exact State.storeFromIndex_mapTimers f g s _
  | ldVxMemI x =>
    simp only [exec, execLdVxMemI, State.checkRange_mapTimers, State.base_mapTimers, State.loadBytes_mapTimers]
    cases s.checkRange (x.val + 1) with
    | error e => rfl
    | ok _ => cases s.loadBytes s.base (x.val + 1) <;> rfl
  | drwVxVyN x y n =>
    simp only [exec, execDrwVxVyN, State.checkRange_mapTimers, State.base_mapTimers, State.loadBytes_mapTimers]
    cases s.checkRange n.val with
    | error e => rfl
    | ok _ => cases s.loadBytes s.base n.val <;> rfl
  | _ => rfl

/-! ### Who writes and who reads a timer -/

/-- An instruction that completes does so again with the timers changed, and leaves them changed alike. -/
theorem exec_mapTimers_next {f g : Byte → Byte} {s t : State} {i : Instr} (h : exec i s = .next t)
    (reads : ∀ x, i = .ldVxDt x → f s.dt = s.dt) (setsDt : ∀ x, i = .ldDtVx x → f (s.reg x) = s.reg x)
    (setsSt : ∀ x, i = .ldStVx x → g (s.reg x) = s.reg x) :
    exec i (s.mapTimers f g) = .next (t.mapTimers f g) := by
  rw [exec_mapTimers f g s i reads setsDt setsSt, h]; rfl

/-- To give the delay timer the value it has is no change, so the instruction leaves it at that value too. -/
theorem exec_keeps_dt {i : Instr} {s t : State} (h : exec i s = .next t) (other : ∀ x, i ≠ .ldDtVx x) :
    t.dt = s.dt := by
  have again : exec i s = .next (t.mapTimers (fun _ => s.dt) id) :=
    exec_mapTimers_next (f := fun _ => s.dt) (g := id) h (fun _ _ => rfl) (fun x e => absurd e (other x)) fun _ _ => rfl
  have same : t = t.mapTimers (fun _ => s.dt) id := Host.Outcome.next.inj (h.symm.trans again)
  exact (congrArg State.dt same).trans rfl

/-- The same for the sound timer. -/
theorem exec_keeps_st {i : Instr} {s t : State} (h : exec i s = .next t) (other : ∀ x, i ≠ .ldStVx x) :
    t.st = s.st := by
  have again : exec i s = .next (t.mapTimers id fun _ => s.st) :=
    exec_mapTimers_next (f := id) (g := fun _ => s.st) h (fun _ _ => rfl) (fun _ _ => rfl) fun x e => absurd e (other x)
  have same : t = t.mapTimers id fun _ => s.st := Host.Outcome.next.inj (h.symm.trans again)
  exact (congrArg State.st same).trans rfl

theorem exec_dt_unread {i : Instr} (s : State) (b : Byte) (reader : ∀ x, i ≠ .ldVxDt x)
    (writer : ∀ x, i ≠ .ldDtVx x) :
    exec i { s with dt := b } = mapNext (fun t => { t with dt := b }) (exec i s) :=
  exec_mapTimers (fun _ => b) id s i (fun x e => absurd e (reader x)) (fun x e => absurd e (writer x))
    fun _ _ => rfl

theorem exec_st_unread {i : Instr} (s : State) (b : Byte) (writer : ∀ x, i ≠ .ldStVx x) :
    exec i { s with st := b } = mapNext (fun t => { t with st := b }) (exec i s) :=
  exec_mapTimers id (fun _ => b) s i (fun _ _ => rfl) (fun _ _ => rfl) fun x e => absurd e (writer x)

/-- What each of the three timer moves has moved when it completes (spec/44_keys_timers.md R103, R104, R105). -/
theorem exec_timer_moves (x : Reg) (s t : State) : (exec (.ldVxDt x) s = .next t → t.v[x] = s.dt) ∧
    (exec (.ldDtVx x) s = .next t → t.dt = s.v[x]) ∧ (exec (.ldStVx x) s = .next t → t.st = s.v[x]) := by
  refine ⟨?_, ?_, ?_⟩
  · rintro ⟨⟩; simp
  · rintro ⟨⟩; rfl
  · rintro ⟨⟩; rfl

theorem State.soundTimerActive_iff (s : State) : s.soundTimerActive = true ↔ s.st.toNat ≠ 0 := by
  simp [State.soundTimerActive, ← BitVec.toNat_inj]

/-- A completed step is its instruction and then the tick (spec/60_exceptions.md R118). -/
theorem step_of_exec {i : Instr} {s t : State} (fetched : s.fetchInstr = .ok i) (h : exec i s = .next t) :
    step s = .next t.tick := by
  rw [step_of_fetchInstr fetched, h]; rfl

/-- Settles O41: the clauses on who writes and who reads a timer are cases of `exec_mapTimers`. -/
theorem timerAccess : Obligations.TimerAccess := by
  unfold Obligations.TimerAccess
  refine ⟨exec_timer_moves, fun _ _ _ h => ⟨exec_keeps_dt h, exec_keeps_st h⟩, fun _ s b => exec_dt_unread s b,
    fun _ _ _ => rfl, fun _ s b => exec_st_unread s b, fun _ _ _ => rfl, State.soundTimerActive_iff, ?_, rfl, rfl⟩
  intro i s t fetched h
  exact ⟨t.tick, step_of_exec fetched h, countDown_toNat t.dt, countDown_toNat t.st⟩

end Sys2Proof.Machine

/-! ## The load of an image (spec/20_memory.md R41, spec/60_exceptions.md R128)

`load` writes a run of consecutive cells. Which cells such a run gives which byte, and that it leaves the others, are
two cases of `Memory.read_writeBytes`. -/

namespace Sys2Proof.Machine

theorem Memory.read_writeBytes_inside (m : Memory) (a : Nat) (bs : List Byte) (k : Nat) (h : k < bs.length) :
    (m.writeBytes a bs).read (a + k) = bs[k] := by
  rw [Memory.read_writeBytes, if_pos (Nat.le_add_right a k), Nat.add_sub_cancel_left,
    List.getD_eq_getElem bs _ h]

theorem Memory.read_writeBytes_outside (m : Memory) {a : Nat} {bs : List Byte} {b : Nat}
    (h : b < a ∨ a + bs.length ≤ b) : (m.writeBytes a bs).read b = m.read b := by
  rw [Memory.read_writeBytes]
  rcases h with below | above
  · rw [if_neg (Nat.not_le.mpr below)]
  · rw [if_pos (by omega), List.getD_eq_default bs _ (by omega)]

/-- A load right after `restart` is carried out (spec/60_exceptions.md R124). -/
theorem Session.act_load_of_initialized {h : Session} (first : h.phase = .initialized) (image : List Byte) :
    h.act (.load image) = h.perform (.load image) := by
  rw [Session.act, first]; rfl

/-- An image that is too large ends the start of the session and leaves its state (spec/60_exceptions.md R128). -/
theorem Session.act_load_tooLarge {h : Session} (first : h.phase = .initialized) {image : List Byte}
    (large : 3584 < image.length) :
    h.act (.load image) = (.loadFailed .programTooLarge, { h with phase := .startFailed }) := by
  simp only [Session.act_load_of_initialized first, Session.perform, State.load_tooLarge _ large]

/-- Settles O50: the refusal is `State.load_tooLarge`, the copy is `State.load_fits` read cell by cell. -/
theorem loadCopiesImage : Obligations.LoadCopiesImage := by
  unfold Obligations.LoadCopiesImage
  intro s image
  constructor
  · intro large
    exact ⟨State.load_tooLarge s large, Session.act_load_tooLarge rfl large⟩
  · intro fits
    exact ⟨_, State.load_fits s fits, Memory.read_writeBytes_inside s.mem Config.loadBase image,
      fun _ outside => Memory.read_writeBytes_outside s.mem outside, rfl⟩

end Sys2Proof.Machine

/-! ## The keys (spec/10_state.md R22, spec/60_exceptions.md R123)

The host writes a key with `setKey`; no meaning, no step and no other host action but `restart` writes one. -/

namespace Sys2Proof.Machine

/-! ### `setKey` -/

theorem State.getElem_key_setKey (s : State) (k j : Key) (down : Bool) :
    (s.setKey k down).key[j] = if j = k then down else s.key[j] := by
  simp only [State.setKey_key, Fin.getElem_fin, Vector.getElem_set, Fin.val_inj, eq_comm (a := j)]

/-- The key named holds the level given, every other key its own. -/
theorem State.setKey_same_and_other (s : State) (k : Key) (down : Bool) :
    (s.setKey k down).key[k] = down ∧ ∀ j : Key, j ≠ k → (s.setKey k down).key[j] = s.key[j] :=
  ⟨(s.getElem_key_setKey k k down).trans (if_pos rfl),
    fun j other => (s.getElem_key_setKey k j down).trans (if_neg other)⟩

/-- The last value of a key is the one kept (spec/60_exceptions.md R123). -/
theorem State.setKey_setKey (s : State) (k : Key) (a b : Bool) : (s.setKey k a).setKey k b = s.setKey k b :=
  congrArg (fun key => { s with key := key }) (Vector.set_set a k.isLt)

theorem State.setKey_comm (s : State) {k j : Key} (a b : Bool) (h : k ≠ j) :
    (s.setKey k a).setKey j b = (s.setKey j b).setKey k a :=
  congrArg (fun key => { s with key := key }) (Vector.set_comm a b (Fin.val_ne_of_ne h))

/-! ### What leaves the keys -/

/-- No instruction writes a key (spec/10_state.md R22). The cases named are the meanings that can stop, by their
inversion lemmas, and the skips; every other meaning is one update of other members. -/
theorem exec_keeps_key {i : Instr} {s t : State} (h : exec i s = .next t) : t.key = s.key := by
  cases i with
  | ret => obtain ⟨_, rfl⟩ := execRet_next h; rfl
  | callNnn nnn => obtain ⟨_, rfl⟩ := execCallNnn_next h; rfl
  | drwVxVyN x y n => obtain ⟨-, rfl⟩ := execDrwVxVyN_next h; rfl
  | ldVxMemI x => obtain ⟨-, rfl⟩ := execLdVxMemI_next h; rfl
  | ldBVx x | ldMemIVx x => obtain ⟨-, rfl⟩ := State.storeFromIndex_next h; rfl
  | ldVxK x => obtain ⟨_, -, rfl⟩ | ⟨-, rfl⟩ := execLdVxK_next h <;> rfl
  | skpVx x => obtain ⟨_, -, rfl⟩ := execSkpVx_next h; exact State.skipIf_key s _
  | sknpVx x => obtain ⟨_, -, rfl⟩ := execSknpVx_next h; exact State.skipIf_key s _
  | seVxKk x kk | sneVxKk x kk | seVxVy x y | sneVxVy x y => cases h; exact State.skipIf_key s _
  | _ => cases h; rfl

theorem step_keeps_key {s t : State} (h : step s = .next t) : t.key = s.key := by
  obtain ⟨_, u, -, executed, rfl⟩ := step_next h
  exact (State.tick_key u).trans (exec_keeps_key executed)

/-- A requested step leaves the keys, whether it completes or not. -/
theorem State.requestStep_keeps_key (s : State) : s.requestStep.2.key = s.key := by
  unfold State.requestStep
  split
  case h_1 t completed => exact step_keeps_key completed
  case h_2 | h_3 => rfl

/-- A load leaves the keys, whether the image fits or not. -/
theorem Session.perform_load_keeps_key (h : Session) (image : List Byte) :
    (h.perform (.load image)).2.state.key = h.state.key := by
  unfold Session.perform
  by_cases fits : image.length ≤ 3584
  · simp only [State.load_fits h.state fits]
  · simp only [State.load_tooLarge h.state (Nat.not_le.mp fits)]

/-- Every host action but `restart` and `setKey` leaves the keys (spec/60_exceptions.md R123). -/
theorem Session.act_keeps_key (h : Session) {a : HostAction} (notRestart : a ≠ .restart)
    (notSetKey : ∀ k down, a ≠ .setKey k down) : (h.act a).2.state.key = h.state.key := by
  obtain ⟨-, done⟩ | ⟨-, turnedAway⟩ := h.act_cases a
  · rw [done]
    cases a with
    | restart => exact absurd rfl notRestart
    | setKey k down => exact absurd rfl (notSetKey k down)
    | load image => exact h.perform_load_keeps_key image
    | clearRedraw => rfl
    | step => exact h.state.requestStep_keeps_key
  · rw [turnedAway]

/-- All keys are up after `restart` (spec/10_state.md R22). -/
theorem State.getElem_key_restart (s : State) (k : Key) : s.restart.key[k] = false := by
  simp [State.reset]

/-- Settles O51: the laws of `setKey`, and `Session.act_keeps_key` for the other host actions. -/
theorem setKeyKeepsLastValue : Obligations.SetKeyKeepsLastValue := by
  unfold Obligations.SetKeyKeepsLastValue
  exact ⟨fun s k down => ⟨rfl, s.setKey_same_and_other k down⟩, State.setKey_setKey,
    fun s _ _ a b other => s.setKey_comm a b other, fun h _ => h.act_keeps_key, State.getElem_key_restart⟩

end Sys2Proof.Machine

/-! ## The encoding (spec/30_encoding.md)

One lemma per instruction format says that a word of the format decodes by its row, and one that a row of the format
gives back every word it matches. The rows are named by their place in the priority order of R49, counted from 0. -/

namespace Sys2Proof

/-! ### From the instruction to its word and back -/

theorem fieldX_eq {w : Word} {x : Reg} (h : w.toNat / 256 % 16 = x.val) : fieldX w = x :=
  Fin.ext ((fieldX_val w).trans h)

theorem fieldY_eq {w : Word} {y : Reg} (h : w.toNat / 16 % 16 = y.val) : fieldY w = y :=
  Fin.ext ((fieldY_val w).trans h)

theorem fieldN_eq {w : Word} {n : Height} (h : w.toNat % 16 = n.val) : fieldN w = n :=
  Fin.ext ((fieldN_val w).trans h)

theorem fieldKK_eq {w : Word} {kk : Byte} (h : w.toNat % 256 = kk.toNat) : fieldKK w = kk :=
  BitVec.eq_of_toNat_eq ((fieldKK_toNat w).trans h)

theorem fieldNNN_eq {w : Word} {nnn : Address} (h : w.toNat % 4096 = nnn.toNat) : fieldNNN w = nnn :=
  BitVec.eq_of_toNat_eq ((fieldNNN_toNat w).trans h)

theorem nibble_toNat (n : Fin 16) : (nibble n).toNat = n.val := rfl

/-- A word decodes by the row at place `k` of the table when it matches it. -/
theorem decode_of_row {w : Word} {r : DecodeRow} (k : Nat) (row : decodeTable[k]? = some r)
    (h : rowMatches w r = true) : decode w = .ok (r.build w) :=
  decode_of_matches (List.mem_of_getElem? row) h

theorem decode_wordA {p : Word} {op : BitVec 4} {f : Address → Instr} (k : Nat)
    (row : decodeTable[k]? = some (rowA p f)) (code : op.toNat * 4096 = p.toNat) (nnn : Address) :
    decode (wordA op nnn) = .ok (f nnn) := by
  have word := wordA_toNat op nnn
  have bound := nnn.isLt
  rw [decode_of_row k row ((rowMatches_rowA _ p f).mpr (by rw [← code]; clear code; omega))]
  simp only [rowA, fieldNNN_eq (w := wordA op nnn) (nnn := nnn) (by omega)]

theorem decode_wordXK {p : Word} {op : BitVec 4} {f : Reg → Byte → Instr} (k : Nat)
    (row : decodeTable[k]? = some (rowXK p f)) (code : op.toNat * 4096 = p.toNat) (x : Reg) (kk : Byte) :
    decode (wordXK op x kk) = .ok (f x kk) := by
  have word := wordXK_toNat op x kk
  have bound := kk.isLt
  rw [decode_of_row k row ((rowMatches_rowXK _ p f).mpr (by rw [← code]; clear code; omega))]
  simp only [rowXK, fieldX_eq (w := wordXK op x kk) (x := x) (by omega),
    fieldKK_eq (w := wordXK op x kk) (kk := kk) (by omega)]

theorem decode_wordX {p : Word} {op : BitVec 4} {low : Byte} {f : Reg → Instr} (k : Nat)
    (row : decodeTable[k]? = some (rowX p f)) (code : op.toNat * 4096 + low.toNat = p.toNat) (x : Reg) :
    decode (wordXK op x low) = .ok (f x) := by
  have word := wordXK_toNat op x low
  have bound := low.isLt
  rw [decode_of_row k row ((rowMatches_rowX _ p f).mpr (by rw [← code]; clear code; omega))]
  simp only [rowX, fieldX_eq (w := wordXK op x low) (x := x) (by omega)]

theorem decode_wordXY {p : Word} {op low : BitVec 4} {f : Reg → Reg → Instr} (k : Nat)
    (row : decodeTable[k]? = some (rowXY p f)) (code : op.toNat * 4096 + low.toNat = p.toNat) (x y : Reg) :
    decode (wordXYN op x y low) = .ok (f x y) := by
  have word := wordXYN_toNat op x y low
  have bound := low.isLt
  rw [decode_of_row k row ((rowMatches_rowXY _ p f).mpr (by rw [← code]; clear code; omega))]
  simp only [rowXY, fieldX_eq (w := wordXYN op x y low) (x := x) (by omega),
    fieldY_eq (w := wordXYN op x y low) (y := y) (by omega)]

theorem decode_wordXYN {p : Word} {op : BitVec 4} {f : Reg → Reg → Height → Instr} (k : Nat)
    (row : decodeTable[k]? = some (rowXYN p f)) (code : op.toNat * 4096 = p.toNat) (x y : Reg) (n : Height) :
    decode (wordXYN op x y (nibble n)) = .ok (f x y n) := by
  have word := wordXYN_toNat op x y (nibble n)
  rw [nibble_toNat] at word
  rw [decode_of_row k row ((rowMatches_rowXYN _ p f).mpr (by rw [← code]; clear code; omega))]
  simp only [rowXYN, fieldX_eq (w := wordXYN op x y (nibble n)) (x := x) (by omega),
    fieldY_eq (w := wordXYN op x y (nibble n)) (y := y) (by omega),
    fieldN_eq (w := wordXYN op x y (nibble n)) (n := n) (by omega)]

/-- Settles O2: each constructor is one word of its format, whose row stands at the place given. -/
theorem decodeInvertsEncode : Obligations.DecodeInvertsEncode := by
  unfold Obligations.DecodeInvertsEncode
  intro i
  cases i with
  | cls => exact decode_of_row 0 rfl ((rowMatches_rowE _ _ _).mpr rfl)
  | ret => exact decode_of_row 1 rfl ((rowMatches_rowE _ _ _).mpr rfl)
  | jpNnn nnn => exact decode_wordA 2 rfl rfl nnn
  | callNnn nnn => exact decode_wordA 3 rfl rfl nnn
  | seVxKk x kk => exact decode_wordXK 4 rfl rfl x kk
  | sneVxKk x kk => exact decode_wordXK 5 rfl rfl x kk
  | seVxVy x y => exact decode_wordXY 6 rfl rfl x y
  | ldVxKk x kk => exact decode_wordXK 7 rfl rfl x kk
  | addVxKk x kk => exact decode_wordXK 8 rfl rfl x kk
  | ldVxVy x y => exact decode_wordXY 9 rfl rfl x y
  | orVxVy x y => exact decode_wordXY 10 rfl rfl x y
  | andVxVy x y => exact decode_wordXY 11 rfl rfl x y
  | xorVxVy x y => exact decode_wordXY 12 rfl rfl x y
  | addVxVy x y => exact decode_wordXY 13 rfl rfl x y
  | subVxVy x y => exact decode_wordXY 14 rfl rfl x y
  | shrVx x y => exact decode_wordXY 15 rfl rfl x y
  | subnVxVy x y => exact decode_wordXY 16 rfl rfl x y
  | shlVx x y => exact decode_wordXY 17 rfl rfl x y
  | sneVxVy x y => exact decode_wordXY 18 rfl rfl x y
  | ldINnn nnn => exact decode_wordA 19 rfl rfl nnn
  | jpV0Nnn nnn => exact decode_wordA 20 rfl rfl nnn
  | rndVxKk x kk => exact decode_wordXK 21 rfl rfl x kk
  | drwVxVyN x y n => exact decode_wordXYN 22 rfl rfl x y n
  | skpVx x => exact decode_wordX 23 rfl rfl x
  | sknpVx x => exact decode_wordX 24 rfl rfl x
  | ldVxDt x => exact decode_wordX 25 rfl rfl x
  | ldVxK x => exact decode_wordX 26 rfl rfl x
  | ldDtVx x => exact decode_wordX 27 rfl rfl x
  | ldStVx x => exact decode_wordX 28 rfl rfl x
  | addIVx x => exact decode_wordX 29 rfl rfl x
  | ldFVx x => exact decode_wordX 30 rfl rfl x
  | ldBVx x => exact decode_wordX 31 rfl rfl x
  | ldMemIVx x => exact decode_wordX 32 rfl rfl x
  | ldVxMemI x => exact decode_wordX 33 rfl rfl x

/-! ### From the word to its instruction and back -/

/-- Every word the row matches is the word of the instruction the row builds from it. -/
def DecodeRow.Inverts (r : DecodeRow) : Prop := ∀ w, rowMatches w r = true → encode (r.build w) = w

theorem inverts_rowE {p : Word} {i : Instr} (word : encode i = p) : (rowE p i).Inverts := fun w h =>
  word.trans (BitVec.eq_of_toNat_eq ((rowMatches_rowE w p i).mp h).symm)

theorem inverts_rowA {p : Word} {f : Address → Instr} (op : BitVec 4) (code : op.toNat * 4096 = p.toNat)
    (word : ∀ nnn, encode (f nnn) = wordA op nnn) : (rowA p f).Inverts := by
  intro w h
  rw [rowMatches_rowA, ← code] at h
  have top : w.toNat / 4096 = op.toNat := by omega
  refine (word _).trans (BitVec.eq_of_toNat_eq ?_)
  rw [wordA_toNat, fieldNNN_toNat, ← top]
  clear h top code
  omega

theorem inverts_rowXK {p : Word} {f : Reg → Byte → Instr} (op : BitVec 4) (code : op.toNat * 4096 = p.toNat)
    (word : ∀ x kk, encode (f x kk) = wordXK op x kk) : (rowXK p f).Inverts := by
  intro w h
  rw [rowMatches_rowXK, ← code] at h
  have top : w.toNat / 4096 = op.toNat := by omega
  refine (word _ _).trans (BitVec.eq_of_toNat_eq ?_)
  rw [wordXK_toNat, fieldX_val, fieldKK_toNat, ← top]
  clear h top code
  omega

theorem inverts_rowX {p : Word} {f : Reg → Instr} (op : BitVec 4) (low : Byte)
    (code : op.toNat * 4096 + low.toNat = p.toNat) (word : ∀ x, encode (f x) = wordXK op x low) :
    (rowX p f).Inverts := by
  intro w h
  rw [rowMatches_rowX, ← code] at h
  have bound := low.isLt
  have top : w.toNat / 4096 = op.toNat := by omega
  have bottom : w.toNat % 256 = low.toNat := by omega
  refine (word _).trans (BitVec.eq_of_toNat_eq ?_)
  rw [wordXK_toNat, fieldX_val, ← top, ← bottom]
  clear h top bottom bound code
  omega

theorem inverts_rowXY {p : Word} {f : Reg → Reg → Instr} (op low : BitVec 4)
    (code : op.toNat * 4096 + low.toNat = p.toNat) (word : ∀ x y, encode (f x y) = wordXYN op x y low) :
    (rowXY p f).Inverts := by
  intro w h
  rw [rowMatches_rowXY, ← code] at h
  have bound := low.isLt
  have top : w.toNat / 4096 = op.toNat := by omega
  have bottom : w.toNat % 16 = low.toNat := by omega
  refine (word _ _).trans (BitVec.eq_of_toNat_eq ?_)
  rw [wordXYN_toNat, fieldX_val, fieldY_val, ← top, ← bottom]
  clear h top bottom bound code
  omega

theorem inverts_rowXYN {p : Word} {f : Reg → Reg → Height → Instr} (op : BitVec 4)
    (code : op.toNat * 4096 = p.toNat) (word : ∀ x y n, encode (f x y n) = wordXYN op x y (nibble n)) :
    (rowXYN p f).Inverts := by
  intro w h
  rw [rowMatches_rowXYN, ← code] at h
  have top : w.toNat / 4096 = op.toNat := by omega
  refine (word _ _ _).trans (BitVec.eq_of_toNat_eq ?_)
  rw [wordXYN_toNat, nibble_toNat, fieldX_val, fieldY_val, fieldN_val, ← top]
  clear h top code
  omega

theorem decodeTableLow_inverts : ∀ r ∈ decodeTableLow, r.Inverts := by
  simp only [decodeTableLow, List.forall_mem_cons]
  exact ⟨inverts_rowE rfl, inverts_rowE rfl, inverts_rowA 1 rfl fun _ => rfl, inverts_rowA 2 rfl fun _ => rfl,
    inverts_rowXK 3 rfl fun _ _ => rfl, inverts_rowXK 4 rfl fun _ _ => rfl, inverts_rowXY 5 0 rfl fun _ _ => rfl,
    inverts_rowXK 6 rfl fun _ _ => rfl, inverts_rowXK 7 rfl fun _ _ => rfl, List.forall_mem_nil _⟩

theorem decodeTableAlu_inverts : ∀ r ∈ decodeTableAlu, r.Inverts := by
  simp only [decodeTableAlu, List.forall_mem_cons]
  exact ⟨inverts_rowXY 8 0 rfl fun _ _ => rfl, inverts_rowXY 8 1 rfl fun _ _ => rfl,
    inverts_rowXY 8 2 rfl fun _ _ => rfl, inverts_rowXY 8 3 rfl fun _ _ => rfl, inverts_rowXY 8 4 rfl fun _ _ => rfl,
    inverts_rowXY 8 5 rfl fun _ _ => rfl, inverts_rowXY 8 6 rfl fun _ _ => rfl, inverts_rowXY 8 7 rfl fun _ _ => rfl,
    inverts_rowXY 8 14 rfl fun _ _ => rfl, List.forall_mem_nil _⟩

theorem decodeTableHigh_inverts : ∀ r ∈ decodeTableHigh, r.Inverts := by
  simp only [decodeTableHigh, List.forall_mem_cons]
  exact ⟨inverts_rowXY 9 0 rfl fun _ _ => rfl, inverts_rowA 10 rfl fun _ => rfl, inverts_rowA 11 rfl fun _ => rfl,
    inverts_rowXK 12 rfl fun _ _ => rfl, inverts_rowXYN 13 rfl fun _ _ _ => rfl,
    inverts_rowX 14 0x9E rfl fun _ => rfl, inverts_rowX 14 0xA1 rfl fun _ => rfl,
    inverts_rowX 15 0x07 rfl fun _ => rfl, inverts_rowX 15 0x0A rfl fun _ => rfl,
    inverts_rowX 15 0x15 rfl fun _ => rfl, inverts_rowX 15 0x18 rfl fun _ => rfl,
    inverts_rowX 15 0x1E rfl fun _ => rfl, inverts_rowX 15 0x29 rfl fun _ => rfl,
    inverts_rowX 15 0x33 rfl fun _ => rfl, inverts_rowX 15 0x55 rfl fun _ => rfl,
    inverts_rowX 15 0x65 rfl fun _ => rfl, List.forall_mem_nil _⟩

theorem decodeTable_inverts : ∀ r ∈ decodeTable, r.Inverts := by
  intro r mem
  simp only [decodeTable, List.mem_append] at mem
  rcases mem with (low | alu) | high
  · exact decodeTableLow_inverts r low
  · exact decodeTableAlu_inverts r alu
  · exact decodeTableHigh_inverts r high

/-- Settles O3: a word that decodes does so by a row it matches, and every row gives such a word back. -/
theorem encodeInvertsDecode : Obligations.EncodeInvertsDecode := by
  unfold Obligations.EncodeInvertsDecode
  intro w i h
  obtain ⟨r, mem, hits, rfl⟩ := matches_of_decode h
  exact decodeTable_inverts r mem w hits

/-! ### The words that match no row, and those that match more than one -/

theorem code_eq_iff {q p : Nat} : q * 4096 = p ↔ q = p / 4096 ∧ p % 4096 = 0 := by omega

theorem code_low_eq_iff {q p a m : Nat} (pos : 0 < m) (small : m ≤ 4096) :
    q * 4096 + a % m = p ↔ q = p / 4096 ∧ a % m = p % 4096 := by
  have low : a % m < m := Nat.mod_lt a pos
  omega

/-- Settles O4: `q` is the value of the top four bits. For most of its sixteen values the rows leave nothing, or all but
two words; in the families 5, 8, 9, E and F the lower digits decide. -/
theorem unknownWordsExactly : Obligations.UnknownWordsExactly := by
  unfold Obligations.UnknownWordsExactly
  intro w
  have top : w.toNat / 4096 < 16 := by omega
  have digits : w.toNat = w.toNat / 4096 * 4096 + w.toNat % 4096 := by omega
  rw [decode_error_iff]
  simp only [true_and, decodeTable, decodeTableLow, decodeTableAlu, decodeTableHigh, List.forall_mem_append,
    List.forall_mem_cons]
  simp only [List.not_mem_nil, false_implies, implies_true, and_true, rowMatches_rowE, rowMatches_rowA,
    rowMatches_rowXK, rowMatches_rowXYN, rowMatches_rowXY, rowMatches_rowX, BitVec.reduceToNat, ne_eq,
    ← BitVec.toNat_inj, List.mem_cons, or_false, not_or, and_assoc, code_eq_iff, code_low_eq_iff, Nat.reduceDiv,
    Nat.reduceMod, Nat.reduceLT, Nat.reduceLeDiff]
  generalize w.toNat / 4096 = q at *
  interval_cases q <;> simp
  all_goals omega

/-- No two elements of a pairwise exclusive list pass the same test. -/
theorem length_filter_le_one {α : Type} {R : α → α → Prop} {p : α → Bool} {l : List α} (hl : l.Pairwise R)
    (excl : ∀ a b, R a b → p a = true → p b = false) : (l.filter p).length ≤ 1 := by
  have pairs := hl.filter p
  have pass : ∀ a ∈ l.filter p, p a = true := fun a ha => (List.mem_filter.mp ha).2
  match l.filter p, pairs, pass with
  | [], _, _ => exact Nat.zero_le 1
  | [_], _, _ => exact Nat.le_refl 1
  | a :: b :: _, pairs, pass =>
    have apart : R a b := (List.pairwise_cons.mp pairs).1 b (by simp)
    exact absurd (excl a b apart (pass a (by simp))) (by simp [pass b (by simp)])

/-- Settles O5: the rows are pairwise disjoint. -/
theorem atMostOneRowMatches : Obligations.AtMostOneRowMatches := by
  unfold Obligations.AtMostOneRowMatches
  exact fun w => length_filter_le_one decodeTable_disjoint fun _ _ => rowMatches_of_disjoint

/-- Settles O1: every sample is the word of its instruction but `0x5AB1`, which is of the class `5xyn`. -/
theorem sampleWordsDecode : Obligations.SampleWordsDecode := by
  unfold Obligations.SampleWordsDecode
  have decodes := decodeInvertsEncode
  exact ⟨decodes .cls, decodes .ret, decodes (.jpNnn 0xFFF), decodes (.seVxKk 10 0xFF), decodes (.seVxVy 10 11),
    decodes (.addVxVy 10 11), decodes (.shrVx 10 11), decodes (.ldINnn 0x123), decodes (.rndVxKk 1 0xF0),
    decodes (.drwVxVyN 1 2 15), decodes (.skpVx 1), decodes (.ldVxK 1), decodes (.ldBVx 1), decodes (.ldVxMemI 1),
    (unknownWordsExactly 0x5AB1).mpr (.inr (.inl (by decide)))⟩

end Sys2Proof

/-! ## What an instruction does, member by member

The execute phase in one equation, `exec_eq`: the fault of the table `execFault`, or else the next state, whose members
are given one by one. Each table names the instructions that write its member and leaves the member alone under all
others, so the rules on the whole machine are read off it. `key` has no table: no instruction writes it. -/

namespace Sys2Proof.Machine

/-! ### The tables -/

/-- The frame buffer and the collision of a draw (spec/43_display.md R96). -/
def State.drawn (s : State) (x y : Reg) (n : Height) : Frame × Bool :=
  drawRows s.v[x].toNat s.v[y].toNat (s.spriteBytes n.val) (s.fb, false)

/-- The registers after a result and then its flag (spec/10_state.md R15). -/
def State.regsWithFlag (s : State) (x : Reg) (b : Byte) (flag : Bool) : Vector Byte 16 :=
  (s.v.set x b).set 15 (flagByte flag)

def State.regsAfter (s : State) : Instr → Vector Byte 16
  | .ldVxKk x kk => s.v.set x kk
  | .addVxKk x kk => s.v.set x (s.v[x] + kk)
  | .ldVxVy x y => s.v.set x s.v[y]
  | .orVxVy x y => s.v.set x (s.v[x] ||| s.v[y])
  | .andVxVy x y => s.v.set x (s.v[x] &&& s.v[y])
  | .xorVxVy x y => s.v.set x (s.v[x] ^^^ s.v[y])
  | .addVxVy x y => s.regsWithFlag x (s.v[x] + s.v[y]) (carryOut s.v[x] s.v[y])
  | .subVxVy x y => s.regsWithFlag x (s.v[x] - s.v[y]) (strictlyGreater s.v[x] s.v[y])
  | .shrVx x _ => s.regsWithFlag x (s.v[x] >>> 1) (lowestBit s.v[x])
  | .subnVxVy x y => s.regsWithFlag x (s.v[y] - s.v[x]) (strictlyGreater s.v[y] s.v[x])
  | .shlVx x _ => s.regsWithFlag x (s.v[x] <<< 1) (highestBit s.v[x])
  | .rndVxKk x kk => s.v.set x (s.randomByte &&& kk)
  | .drwVxVyN x y n => s.v.set 15 (flagByte (s.drawn x y n).2)
  | .ldVxDt x => s.v.set x s.dt
  | .ldVxK x => s.leastKeyDown.elim s.v fun k => s.v.set x (BitVec.ofNat 8 k.val)
  | .addIVx x => s.v.set 15 (flagByte (indexOverflow s.i s.v[x]))
  | .ldVxMemI x => (s.setRegs (s.spriteBytes (x.val + 1))).v
  | _ => s.v

def State.indexAfter (s : State) : Instr → Word
  | .ldINnn nnn => BitVec.ofNat 16 nnn.toNat
  | .addIVx x => s.i + s.v[x].zeroExtend 16
  | .ldFVx x => BitVec.ofNat 16 (s.v[x].toNat * 5)
  | _ => s.i

def State.spAfter (s : State) : Instr → Fin 17
  | .ret => ⟨s.sp.val - 1, by omega⟩
  | .callNnn _ => if room : s.sp.val < 16 then ⟨s.sp.val + 1, by omega⟩ else s.sp
  | _ => s.sp

def State.stackAfter (s : State) : Instr → Vector Word 16
  | .callNnn _ => if room : s.sp.val < 16 then s.stack.set s.sp.val s.pc else s.stack
  | _ => s.stack

def State.dtAfter (s : State) : Instr → Byte
  | .ldDtVx x => s.v[x]
  | _ => s.dt

def State.stAfter (s : State) : Instr → Byte
  | .ldStVx x => s.v[x]
  | _ => s.st

def State.fbAfter (s : State) : Instr → Frame
  | .cls => blankFrame
  | .drwVxVyN x y n => (s.drawn x y n).1
  | _ => s.fb

def State.redrawAfter (s : State) : Instr → Bool
  | .cls | .drwVxVyN _ _ _ => true
  | _ => s.needsRedraw

def State.memAfter (s : State) : Instr → Memory
  | .ldBVx x => s.mem.writeBytes s.i.toNat (decimalDigits s.v[x])
  | .ldMemIVx x => s.mem.writeBytes s.i.toNat (s.regsUpTo x)
  | _ => s.mem

def State.drawsAfter (s : State) : Instr → Nat
  | .rndVxKk _ _ => s.draws + 1
  | _ => s.draws

/-- The state after an instruction that raises no fault. Where `pc` is, is the spec's own table `pcAfter`. -/
def State.after (s : State) (i : Instr) : State where
  v := s.regsAfter i
  i := s.indexAfter i
  pc := pcAfter s i
  sp := s.spAfter i
  stack := s.stackAfter i
  dt := s.dtAfter i
  st := s.stAfter i
  key := s.key
  fb := s.fbAfter i
  needsRedraw := s.redrawAfter i
  mem := s.memAfter i
  draws := s.drawsAfter i

/-! ### The tables are what the execute phase does -/

theorem addressOperand_eq (nnn : Address) : addressOperand nnn = BitVec.ofNat 16 nnn.toNat :=
  BitVec.eq_of_toNat_eq (by simp [addressOperand])

/-- The target of `JP V0, nnn` as one sum (spec/40_flow.md R63). -/
theorem addressOperand_add (nnn : Address) (b : Byte) :
    addressOperand nnn + b.zeroExtend 16 = BitVec.ofNat 16 (nnn.toNat + b.toNat) :=
  BitVec.eq_of_toNat_eq (by simp [addressOperand])

theorem State.skipIf_eq (s : State) {c : Bool} {p : Prop} [Decidable p] (h : c = true ↔ p) :
    s.skipIf c = { s with pc := if p then s.pc + 4 else s.pc + 2 } := by
  by_cases holds : p
  · rw [h.mpr holds, if_pos holds]; rfl
  · rw [Bool.eq_false_iff.mpr fun c => holds (h.mp c), if_neg holds]; rfl

theorem State.getD_stack (s : State) (k : Nat) (h : k < 16) : s.stack.toList.getD k 0 = s.stack[k] := by
  simp [List.getD_eq_getElem?_getD, h]

theorem State.getD_key (s : State) (k : Key) : s.key.toList.getD k.val false = s.key[k] := by
  simp [List.getD_eq_getElem?_getD]

/-- A key is down exactly when there is a least one. -/
theorem State.exists_key_iff (s : State) : (∃ k : Key, s.key[k] = true) ↔ s.leastKeyDown.isSome = true := by
  simp [State.leastKeyDown, List.find?_isSome]

/-- A store from `I` on of `n + 1` bytes, by whether its last address exists (spec/20_memory.md R35). -/
theorem State.storeFromIndex_eq (s : State) {bytes : List Byte} {n : Nat} (len : bytes.length = n + 1) :
    s.storeFromIndex bytes =
      (if 0xFFF < s.i.toNat + n then some (Fault.addressOverflow (max s.i.toNat 0x1000)) else none).elim
        (.next { s with mem := s.mem.writeBytes s.i.toNat bytes, pc := s.pc + 2 }) .fault := by
  by_cases outside : 0xFFF < s.i.toNat + n
  · rw [if_pos outside, s.storeFromIndex_outside bytes (by omega) (by omega)]; rfl
  · rw [if_neg outside, s.storeFromIndex_inside bytes (by omega)]; rfl

/-- The whole execute phase: the fault of the table, or else the state of the tables. The cases named are the meanings
that can stop, each by what its operation answers, and those that test a condition; the other meanings are the tables'
entries as they stand. -/
theorem exec_eq (i : Instr) (s : State) : exec i s = (execFault s i).elim (.next (s.after i)) .fault := by
  cases i with
  | ret =>
    simp only [exec, execRet, execFault]
    by_cases empty : s.sp.val = 0
    · rw [State.pop_empty s empty, if_pos empty]; rfl
    · rw [State.pop_live s (by omega), if_neg empty, ← s.getD_stack (s.sp.val - 1) (by omega)]; rfl
  | callNnn nnn =>
    simp only [exec, execCallNnn, execFault, addressOperand_eq]
    by_cases full : s.sp.val = 16
    · rw [State.push_full s s.pc full, if_pos full]; rfl
    · have room : s.sp.val < 16 := by omega
      rw [State.push_room s s.pc room, if_neg full]
      simp only [Option.elim, State.after, State.spAfter, State.stackAfter, dif_pos room]
      rfl
  | jpNnn nnn => exact congrArg (fun w => Host.Outcome.next (s.jump w)) (addressOperand_eq nnn)
  | jpV0Nnn nnn => exact congrArg (fun w => Host.Outcome.next (s.jump w)) (addressOperand_add nnn s.v[0])
  | ldINnn nnn => exact congrArg (fun w => Host.Outcome.next (s.setIndex w).advance) (addressOperand_eq nnn)
  | seVxKk x kk | seVxVy x y => exact congrArg Host.Outcome.next (s.skipIf_eq beq_iff_eq)
  | sneVxKk x kk | sneVxVy x y => exact congrArg Host.Outcome.next (s.skipIf_eq bne_iff_ne)
  | skpVx x | sknpVx x =>
    simp only [exec, execSkpVx, execSknpVx, execFault, State.reg]
    by_cases large : 15 < s.v[x].toNat
    · rw [if_pos large, keyOperand_outside large]; rfl
    · have key := s.getD_key ⟨s.v[x].toNat, by omega⟩
      rw [if_neg large, keyOperand_inside (k := ⟨s.v[x].toNat, by omega⟩) rfl]
      simp only [← key, s.skipIf_eq Iff.rfl, Bool.not_eq_true']
      rfl
  | ldVxK x =>
    simp only [exec, execLdVxK, execFault, Option.elim, State.after, State.regsAfter, pcAfter, State.exists_key_iff]
    cases s.leastKeyDown <;> rfl
  | drwVxVyN x y n =>
    by_cases inside : n.val = 0 ∨ s.i.toNat + n.val ≤ 0x1000
    · rw [execDrwVxVyN_inside x y n inside, execFault, if_neg (by omega)]; rfl
    · rw [execFault, if_pos (by omega)]
      simp only [exec, execDrwVxVyN, State.checkRange_fault (s := s) (n := n.val) (by omega) (by omega)]
      rfl
  | ldBVx x => exact s.storeFromIndex_eq (length_decimalDigits s.v[x])
  | ldMemIVx x => exact s.storeFromIndex_eq (s.length_regsUpTo x)
  | ldVxMemI x =>
    simp only [exec, execLdVxMemI, execFault]
    by_cases outside : 0xFFF < s.i.toNat + x.val
    · rw [if_pos outside, State.checkRange_fault (by omega) (by omega)]; rfl
    · have inside : s.i.toNat + (x.val + 1) ≤ 0x1000 := by omega
      rw [if_neg outside, State.checkRange_ok (.inr inside), State.base, s.loadBytes_inside _ _ inside]
      simp only [State.setRegs, State.advance, State.jump]
      rfl
  | _ => rfl

theorem exec_eq_fault_iff {i : Instr} {s : State} {f : Fault} : exec i s = .fault f ↔ execFault s i = some f := by
  rw [exec_eq]
  cases execFault s i <;> simp

theorem exec_eq_next_iff {i : Instr} {s t : State} :
    exec i s = .next t ↔ execFault s i = none ∧ t = s.after i := by
  rw [exec_eq]
  cases execFault s i <;> simp [eq_comm]

/-- A completed step with its instruction known is the tables' state and then the tick. -/
theorem step_eq_next_iff {s u : State} {i : Instr} (fetched : s.fetchInstr = .ok i) :
    step s = .next u ↔ execFault s i = none ∧ u = (s.after i).tick := by
  rw [step_of_fetchInstr fetched, exec_eq]
  cases execFault s i <;> simp [endStep, raise, eq_comm]

/-- A completed step ran some instruction: the tables' state and then the tick. -/
theorem step_next_after {s u : State} (h : step s = .next u) :
    ∃ i, s.fetchInstr = .ok i ∧ execFault s i = none ∧ u = (s.after i).tick := by
  obtain ⟨i, t, fetched, -, -⟩ := step_next h
  exact ⟨i, fetched, (step_eq_next_iff fetched).mp h⟩

/-- Settles O30: the two cases of `exec_eq`. -/
theorem execFaultsExactly : Obligations.ExecFaultsExactly := by
  unfold Obligations.ExecFaultsExactly
  intro i s
  cases h : execFault s i with
  | some f => exact exec_eq_fault_iff.mpr h
  | none => exact ⟨s.after i, exec_eq_next_iff.mpr ⟨h, rfl⟩⟩

end Sys2Proof.Machine

/-! ## Who writes what (spec/10_state.md sections 3 to 5, spec/97_test_programs.md section 4) -/

namespace Sys2Proof.Machine

variable {i : Instr}

/-! ### `I`, the stack, memory and the count of random bytes -/

theorem State.indexAfter_eq (s : State) (notLoad : ∀ nnn, i ≠ .ldINnn nnn) (other : ∀ x, i ≠ .addIVx x ∧ i ≠ .ldFVx x) :
    s.indexAfter i = s.i := by
  cases i with
  | ldINnn nnn => exact absurd rfl (notLoad nnn)
  | addIVx x => exact absurd rfl (other x).1
  | ldFVx x => exact absurd rfl (other x).2
  | _ => rfl

theorem State.stackAfter_eq (s : State) (notCall : ∀ nnn, i ≠ .callNnn nnn) : s.stackAfter i = s.stack := by
  cases i with
  | callNnn nnn => exact absurd rfl (notCall nnn)
  | _ => rfl

theorem State.spAfter_eq (s : State) (notCall : ∀ nnn, i ≠ .callNnn nnn) (notRet : i ≠ .ret) : s.spAfter i = s.sp := by
  cases i with
  | callNnn nnn => exact absurd rfl (notCall nnn)
  | ret => exact absurd rfl notRet
  | _ => rfl

theorem State.memAfter_eq (s : State) (other : ∀ x, i ≠ .ldBVx x ∧ i ≠ .ldMemIVx x) : s.memAfter i = s.mem := by
  cases i with
  | ldBVx x => exact absurd rfl (other x).1
  | ldMemIVx x => exact absurd rfl (other x).2
  | _ => rfl

theorem State.drawsAfter_eq (s : State) (notRandom : ∀ x kk, i ≠ .rndVxKk x kk) : s.drawsAfter i = s.draws := by
  cases i with
  | rndVxKk x kk => exact absurd rfl (notRandom x kk)
  | _ => rfl

/-- Settles O43: each clause is one table's default entry. -/
theorem onlyTheirInstructionsWrite : Obligations.OnlyTheirInstructionsWrite := by
  unfold Obligations.OnlyTheirInstructionsWrite
  intro i s t h
  obtain ⟨-, rfl⟩ := exec_eq_next_iff.mp h
  refine ⟨s.indexAfter_eq, fun notCall => ⟨s.stackAfter_eq notCall, s.spAfter_eq notCall⟩, fun other => ?_,
    s.drawsAfter_eq⟩
  have same : (s.after i).mem = s.mem := s.memAfter_eq other
  exact ⟨same, fun a => congrArg (Memory.read · a) same⟩

/-! ### Registers -/

theorem State.getElem_set_ne (s : State) {x r : Reg} (b : Byte) (other : (r == x) = false) :
    (s.v.set x b)[r] = s.v[r] := by
  have apart : (x : Nat) ≠ r := fun e => by simp [Fin.ext e] at other
  simp [apart]

theorem State.getElem_setFlag_ne (v : Vector Byte 16) {r : Reg} (b : Byte) (other : r ≠ 15) :
    (v.set 15 b)[r] = v[r] := by
  have apart : (15 : Nat) ≠ r := fun e => other (Fin.ext e.symm)
  simp [apart]

theorem State.getElem_regsWithFlag_ne (s : State) {x r : Reg} (b : Byte) (flag : Bool) (other : (r == x) = false)
    (notFlag : r ≠ 15) : (s.regsWithFlag x b flag)[r] = s.v[r] :=
  (State.getElem_setFlag_ne _ _ notFlag).trans (s.getElem_set_ne b other)

theorem State.getElem_setRegs (s : State) (bytes : List Byte) (k : Reg) :
    (s.setRegs bytes).v[k] = bytes.getD k.val s.v[k] := by
  simp

theorem State.length_spriteBytes (s : State) (n : Nat) : (s.spriteBytes n).length = n := by
  simp [State.spriteBytes]

/-- A register that is no destination, and not the flag of a flag writer, is left alone (spec/10_state.md R14). -/
theorem State.getElem_regsAfter_ne (s : State) {r : Reg} (other : isDestination r i = false)
    (notFlag : ¬ (r = 15 ∧ writesFlag i = true)) : (s.regsAfter i)[r] = s.v[r] := by
  cases i with
  | ldVxKk x kk | addVxKk x kk | ldVxVy x y | orVxVy x y | andVxVy x y | xorVxVy x y | rndVxKk x kk | ldVxDt x =>
    exact s.getElem_set_ne _ other
  | addVxVy x y | subVxVy x y | shrVx x y | subnVxVy x y | shlVx x y =>
    exact s.getElem_regsWithFlag_ne _ _ other fun e => notFlag ⟨e, rfl⟩
  | addIVx x | drwVxVyN x y n => exact State.getElem_setFlag_ne s.v _ fun e => notFlag ⟨e, rfl⟩
  | ldVxK x =>
    unfold State.regsAfter
    cases s.leastKeyDown with
    | none => rfl
    | some k => exact s.getElem_set_ne _ other
  | ldVxMemI x =>
    have above : x.val + 1 ≤ r.val := by simpa [isDestination] using other
    refine (s.getElem_setRegs _ r).trans (List.getD_eq_default _ _ ?_)
    rwa [s.length_spriteBytes]
  | _ => rfl

theorem flagByte_cases (flag : Bool) : flagByte flag = 0 ∨ flagByte flag = 1 := by
  cases flag
  · exact .inl rfl
  · exact .inr rfl

theorem State.getElem_flag_set (v : Vector Byte 16) (b : Byte) : (v.set 15 b)[(15 : Reg)] = b := by
  simp

/-- A flag writer leaves 0 or 1 in `VF`, even with `X = 15` (spec/10_state.md R15). -/
theorem State.regsAfter_flag (s : State) (flagged : writesFlag i = true) :
    (s.regsAfter i)[(15 : Reg)] = 0 ∨ (s.regsAfter i)[(15 : Reg)] = 1 := by
  cases i with
  | addVxVy x y | subVxVy x y | shrVx x y | subnVxVy x y | shlVx x y | addIVx x | drwVxVyN x y n =>
    simp only [State.regsAfter, State.regsWithFlag, State.getElem_flag_set]
    exact flagByte_cases _
  | _ => cases flagged

/-- Settles O42, from the table of the registers. -/
theorem registerWriters : Obligations.RegisterWriters := by
  unfold Obligations.RegisterWriters
  intro i s t h
  obtain ⟨-, rfl⟩ := exec_eq_next_iff.mp h
  exact ⟨fun _ => s.getElem_regsAfter_ne, s.regsAfter_flag⟩

/-! ### `pc` -/

theorem pcAfter_jpV0Nnn_toNat (nnn : Address) (s : State) :
    (pcAfter s (.jpV0Nnn nnn)).toNat = nnn.toNat + s.v[0].toNat := by
  have := nnn.isLt
  have := s.v[0].isLt
  simp only [pcAfter, BitVec.toNat_ofNat]
  omega

/-- A call that completes pushed its own address (spec/40_flow.md R62). -/
theorem State.stackAfter_call (s : State) (nnn : Address) (room : s.sp.val < 16) :
    s.stackAfter (.callNnn nnn) = s.stack.set s.sp.val s.pc := by
  simp [State.stackAfter, room]

theorem execFault_call_iff (nnn : Address) (s : State) : execFault s (.callNnn nnn) = none ↔ s.sp.val < 16 := by
  simp only [execFault, ite_eq_right_iff, reduceCtorEq, imp_false]
  omega

/-- Settles O10: `pcAfter` is one of the tables of `exec_eq`. -/
theorem pcAfterEveryInstruction : Obligations.PcAfterEveryInstruction := by
  unfold Obligations.PcAfterEveryInstruction
  refine ⟨fun i s t h => ?_, fun i s t fetched h => ?_, fun nnn s t h => ?_, fun nnn s => ?_, fun s f h => ?_⟩
  · rw [(exec_eq_next_iff.mp h).2]; rfl
  · rw [((step_eq_next_iff fetched).mp h).2]; rfl
  · obtain ⟨noFault, rfl⟩ := exec_eq_next_iff.mp h
    have room := (execFault_call_iff nnn s).mp noFault
    simp [State.after, s.stackAfter_call nnn room, room]
  · have target := pcAfter_jpV0Nnn_toNat nnn s
    have := nnn.isLt
    have := s.v[0].isLt
    exact ⟨target, by omega⟩
  · rw [State.requestStep_fault h]

end Sys2Proof.Machine

/-! ## Who reads what (spec/10_state.md R21 to R23, spec/60_exceptions.md section 2)

An instruction does not depend on a member that neither its fault nor its tables read. -/

namespace Sys2Proof.Machine

variable {s t : State} {i : Instr}

/-- The fault of an instruction depends on the registers, `I`, `pc` and `SP` alone. -/
theorem execFault_congr (v : s.v = t.v) (index : s.i = t.i) (pc : s.pc = t.pc) (sp : s.sp = t.sp) (i : Instr) :
    execFault s i = execFault t i := by
  cases i <;> simp only [execFault, v, index, pc, sp]

/-- Two states with the same fault and corresponding next states have corresponding outcomes. -/
theorem exec_mapNext {f : State → State} (fault : execFault t i = execFault s i) (next : t.after i = f (s.after i)) :
    exec i t = mapNext f (exec i s) := by
  rw [exec_eq, exec_eq, fault, next]
  cases execFault s i <;> rfl

/-! ### `needsRedraw` -/

/-- Settles O44: `needsRedraw` stands in no table but its own. -/
theorem redrawFlagUnread : Obligations.RedrawFlagUnread := by
  unfold Obligations.RedrawFlagUnread
  intro i s b
  refine exec_mapNext (execFault_congr rfl rfl rfl rfl i) ?_
  cases i <;> rfl

theorem State.redrawAfter_of_set (set : s.needsRedraw = true) (i : Instr) : s.redrawAfter i = true := by
  cases i with
  | cls | drwVxVyN x y n => rfl
  | _ => exact set

/-! ### The frame buffer -/

theorem State.fbAfter_eq (s : State) (notCls : i ≠ .cls) (notDraw : ∀ x y n, i ≠ .drwVxVyN x y n) :
    s.fbAfter i = s.fb := by
  cases i with
  | cls => exact absurd rfl notCls
  | drwVxVyN x y n => exact absurd rfl (notDraw x y n)
  | _ => rfl

/-- With another frame buffer every instruction but a draw does the same to everything else; `CLS` overwrites it. -/
theorem State.after_with_fb (s : State) (fb : Frame) (notDraw : ∀ x y n, i ≠ .drwVxVyN x y n) :
    ({ s with fb := fb } : State).after i = if i = .cls then s.after i else { s.after i with fb := fb } := by
  cases i with
  | drwVxVyN x y n => exact absurd rfl (notDraw x y n)
  | _ => rfl

/-- Settles O35. -/
theorem frameBufferAccess : Obligations.FrameBufferAccess := by
  unfold Obligations.FrameBufferAccess
  refine ⟨fun i s t h notCls notDraw => ?_, fun i s fb notDraw => ?_, fun s t set h => ?_, fun s => ⟨rfl, rfl, rfl⟩⟩
  · rw [(exec_eq_next_iff.mp h).2]
    exact s.fbAfter_eq notCls notDraw
  · exact exec_mapNext (execFault_congr rfl rfl rfl rfl i) (s.after_with_fb fb notDraw)
  · obtain ⟨i, -, -, rfl⟩ := step_next_after h
    exact State.redrawAfter_of_set set i

/-! ### The keys -/

theorem State.after_with_key (s : State) (key : Vector Bool 16)
    (notReader : ∀ x, i ≠ .skpVx x ∧ i ≠ .sknpVx x ∧ i ≠ .ldVxK x) :
    ({ s with key := key } : State).after i = { s.after i with key := key } := by
  cases i with
  | skpVx x => exact absurd rfl (notReader x).1
  | sknpVx x => exact absurd rfl (notReader x).2.1
  | ldVxK x => exact absurd rfl (notReader x).2.2
  | _ => rfl

theorem pcAfter_skpVx {x : Reg} {k : Key} (named : s.v[x].toNat = k.val) :
    pcAfter s (.skpVx x) = if s.key[k] = true then s.pc + 4 else s.pc + 2 := by
  rw [pcAfter, named, State.getD_key]

theorem pcAfter_sknpVx {x : Reg} {k : Key} (named : s.v[x].toNat = k.val) :
    pcAfter s (.sknpVx x) = if s.key[k] = false then s.pc + 4 else s.pc + 2 := by
  rw [pcAfter, named, State.getD_key]

theorem pcAfter_ldVxK_of_down {k : Key} (down : s.key[k] = true) (x : Reg) : pcAfter s (.ldVxK x) = s.pc + 2 :=
  if_pos ⟨k, down⟩

theorem pcAfter_ldVxK_of_up (up : ∀ k : Key, s.key[k] = false) (x : Reg) : pcAfter s (.ldVxK x) = s.pc :=
  if_neg fun ⟨k, down⟩ => by simp [up k] at down

/-- The key skips part on the level of the key named, each the other way round (spec/44_keys_timers.md R100, R101). -/
theorem key_skips_part {x : Reg} {k : Key} (named : s.v[x].toNat = k.val) :
    pcAfter (s.setKey k true) (.skpVx x) = pcAfter (s.setKey k false) (.skpVx x) + 2 ∧
      pcAfter (s.setKey k true) (.sknpVx x) + 2 = pcAfter (s.setKey k false) (.sknpVx x) := by
  have level : ∀ down, (s.setKey k down).key[k] = down := fun down => (s.setKey_same_and_other k down).1
  have four : s.pc + 4 = s.pc + 2 + 2 := by bv_omega
  have named' : ∀ down, (s.setKey k down).v[x].toNat = k.val := fun _ => named
  simp only [pcAfter_skpVx (named' _), pcAfter_sknpVx (named' _), level, State.setKey_pc, four]
  exact ⟨rfl, rfl⟩

/-- Settles O40. -/
theorem keysComeFromHost : Obligations.KeysComeFromHost := by
  unfold Obligations.KeysComeFromHost
  refine ⟨fun s t => step_keeps_key, fun i s key notReader => ?_,
    fun x k s t u named => ⟨fun ht hu => ?_, fun ht hu => ?_⟩, fun x k s t h => ?_, fun x s t up h => ?_, State.getElem_key_setKey, State.reset.getElem_key_restart⟩
  · exact exec_mapNext (execFault_congr rfl rfl rfl rfl i) (s.after_with_key key notReader)
  · rw [(exec_eq_next_iff.mp ht).2, (exec_eq_next_iff.mp hu).2]
    exact (key_skips_part named).1
  · rw [(exec_eq_next_iff.mp ht).2, (exec_eq_next_iff.mp hu).2]
    exact (key_skips_part named).2
  · rw [(exec_eq_next_iff.mp h).2]
    exact pcAfter_ldVxK_of_down (s.setKey_same_and_other k true).1 x
  · rw [(exec_eq_next_iff.mp h).2]
    exact pcAfter_ldVxK_of_up up x

/-! ### What a fault does not depend on -/

/-- The fetch, the decode and the fault of an instruction read neither the keys nor `needsRedraw` nor the random bytes
(spec/60_exceptions.md section 2). -/
theorem step_fault_with {f : Fault} (h : step s = .fault f) (key : Vector Bool 16) (redraw : Bool) (draws : Nat) :
    step { s with key := key, needsRedraw := redraw, draws := draws } = .fault f := by
  have fetch : ({ s with key := key, needsRedraw := redraw, draws := draws } : State).fetchInstr = s.fetchInstr := rfl
  obtain fetchFault | ⟨i, fetched, executed⟩ := step_fault h
  · rw [step, State.runStep, fetch, fetchFault]; rfl
  · have same := execFault_congr (t := s) (s := { s with key := key, needsRedraw := redraw, draws := draws })
      rfl rfl rfl rfl i
    rw [step_of_fetchInstr (fetch.trans fetched), exec_eq_fault_iff.mpr (same.trans (exec_eq_fault_iff.mp executed))]
    rfl

/-- A requested step that faults is answered with the fault and moves the phase alone. -/
theorem Session.act_step_fault {h : Session} {f : Fault} (live : h.phase ≠ .startFailed)
    (fault : step h.state = .fault f) : h.act .step = (.fault f, { h with phase := .stepping }) := by
  rw [Session.act_step_of_ne live, State.requestStep_fault fault]

/-- Settles O9. -/
theorem faultRepeats : Obligations.FaultRepeats := by
  unfold Obligations.FaultRepeats
  intro s f fault
  refine ⟨State.requestStep_fault fault, fun phase live => ?_, step_fault_with fault⟩
  rw [Session.run_cons, Session.act_step_fault live fault, Session.run_cons,
    Session.act_step_fault (h := ⟨s, .stepping⟩) nofun fault, Session.run_nil]

end Sys2Proof.Machine

/-! ## The invariant (spec/40_flow.md R61 to R63, spec/20_memory.md section 5)

Memory, stack and `pc` are three tables of `exec_eq`, each bounded by what the fetch and the fault table let through. -/

namespace Sys2Proof.Machine

variable {s t : State} {i : Instr}

/-! ### Every step keeps it -/

/-- An instruction that does not fault stores inside memory only. -/
theorem State.memAfter_wf (canonical : s.mem.wf = true) (noFault : execFault s i = none) :
    (s.memAfter i).wf = true := by
  cases i with
  | ldBVx x =>
    have inside : s.i.toNat + 2 ≤ 0xFFF := by simpa [execFault] using noFault
    exact Memory.wf_writeBytes _ canonical (by rw [length_decimalDigits, Config.memSize]; omega)
  | ldMemIVx x =>
    have inside : s.i.toNat + x.val ≤ 0xFFF := by simpa [execFault] using noFault
    exact Memory.wf_writeBytes _ canonical (by rw [s.length_regsUpTo, Config.memSize]; omega)
  | _ => exact canonical

/-- A call pushes its own address, which the fetch let through. -/
theorem State.stackAfter_le (entries : ∀ k : Fin 16, s.stack[k].toNat ≤ 0xFFE) (fetchable : s.pc.toNat ≤ 0xFFE)
    (k : Fin 16) : (s.stackAfter i)[k].toNat ≤ 0xFFE := by
  cases i with
  | callNnn nnn =>
    by_cases room : s.sp.val < 16
    · rw [s.stackAfter_call nnn room, Fin.getElem_fin, Vector.getElem_set]
      split
      · exact fetchable
      · exact entries k
    · rw [State.stackAfter, dif_neg room]; exact entries k
  | _ => exact entries k

theorem add_toNat_le {a : Word} {n k : Nat} (small : a.toNat ≤ n) (room : n + k ≤ 0x10FE) :
    (a + BitVec.ofNat 16 k).toNat ≤ 0x10FE := by
  rw [BitVec.toNat_add, BitVec.toNat_ofNat]
  omega

/-- `pc` after an instruction, from the fetch and the entries of the stack. -/
theorem pcAfter_le (entries : ∀ k : Fin 16, s.stack[k].toNat ≤ 0xFFE) (fetchable : s.pc.toNat ≤ 0xFFE) (i : Instr) :
    (pcAfter s i).toNat ≤ 0x10FE := by
  have two : (s.pc + 2).toNat ≤ 0x10FE := add_toNat_le fetchable (by decide)
  have four : (s.pc + 4).toNat ≤ 0x10FE := add_toNat_le fetchable (by decide)
  cases i with
  | jpNnn nnn | callNnn nnn =>
    have := nnn.isLt
    simp only [pcAfter, BitVec.toNat_ofNat]
    omega
  | jpV0Nnn nnn =>
    have := nnn.isLt
    have := s.v[0].isLt
    rw [pcAfter_jpV0Nnn_toNat]
    omega
  | ret =>
    have popped : (s.stack[s.sp.val - 1]'(by omega)).toNat ≤ 0xFFE := entries ⟨s.sp.val - 1, by omega⟩
    rw [pcAfter, s.getD_stack _ (by omega)]
    exact add_toNat_le popped (by decide)
  | seVxKk x kk | sneVxKk x kk | seVxVy x y | sneVxVy x y | skpVx x | sknpVx x =>
    simp only [pcAfter]
    split
    · exact four
    · exact two
  | ldVxK x =>
    simp only [pcAfter]
    split
    · exact two
    · omega
  | _ => exact two

/-- Settles O46: the three bounds, with `PC` at most `0xFFE` because the fetch succeeded. -/
theorem stepKeepsInvariant : Obligations.StepKeepsInvariant := by
  unfold Obligations.StepKeepsInvariant
  rintro s t ⟨canonical, entries, -⟩ h
  obtain ⟨i, fetched, noFault, rfl⟩ := step_next_after h
  have fetchable := (State.fetchInstr_ok_iff.mp fetched).1
  exact ⟨State.memAfter_wf canonical noFault, State.stackAfter_le entries fetchable, pcAfter_le entries fetchable i⟩

/-! ### Every host action keeps it -/

/-- Settles O45. -/
theorem resetHasInvariant : Obligations.ResetHasInvariant := by
  unfold Obligations.ResetHasInvariant
  refine ⟨rfl, fun k => ?_, by decide⟩
  simp [State.reset]

theorem State.requestStep_keeps_inv (inv : s.Inv) : s.requestStep.2.Inv := by
  unfold State.requestStep
  split
  case h_1 t completed => exact stepKeepsInvariant s t inv completed
  case h_2 | h_3 => exact inv

/-- A load that succeeds stores inside memory, one that fails stores nothing (spec/20_memory.md R41). -/
theorem Session.perform_load_keeps_inv {h : Session} (inv : h.state.Inv) (image : List Byte) :
    (h.perform (.load image)).2.state.Inv := by
  unfold Session.perform
  by_cases fits : image.length ≤ 3584
  · simp only [State.load_fits h.state fits]
    exact ⟨Memory.wf_writeBytes image inv.1 (by simp only [Config.loadBase, Config.memSize]; omega), inv.2⟩
  · simp only [State.load_tooLarge h.state (Nat.not_le.mp fits)]
    exact inv

theorem Session.act_keeps_inv (h : Session) (a : HostAction) (inv : h.state.Inv) : (h.act a).2.state.Inv := by
  obtain ⟨-, done⟩ | ⟨-, turnedAway⟩ := h.act_cases a
  · rw [done]
    cases a with
    | restart => exact resetHasInvariant
    | load image => exact Session.perform_load_keeps_inv inv image
    | setKey k down => exact inv
    | clearRedraw => exact inv
    | step => exact State.requestStep_keeps_inv inv
  · rw [turnedAway]; exact inv

/-- Settles O47: each action keeps the invariant, so a run of actions does. -/
theorem sessionKeepsInvariant : Obligations.SessionKeepsInvariant := by
  unfold Obligations.SessionKeepsInvariant
  exact ⟨Session.act_keeps_inv, fun actions =>
    Session.run_keeps (P := fun h => h.state.Inv) Session.act_keeps_inv actions Session.start resetHasInvariant⟩

end Sys2Proof.Machine

/-! ## Subroutines (spec/40_flow.md R69) -/

namespace Sys2Proof.Machine

variable {s t u : State}

/-- A step from a state that holds at least `depth` entries leaves the entries below `depth` alone: a call writes above
them, and nothing else writes the stack. -/
theorem step_keeps_entry {k : Nat} (live : k < 16) (below : k < s.sp.val) (h : step s = .next t) :
    t.stack[k] = s.stack[k] := by
  obtain ⟨i, -, noFault, rfl⟩ := step_next_after h
  change (s.stackAfter i)[k] = s.stack[k]
  cases i with
  | callNnn nnn =>
    have room := (execFault_call_iff nnn s).mp noFault
    simp [s.stackAfter_call nnn room, Nat.ne_of_gt below]
  | _ => rfl

theorem StaysAtDepth.keeps_entry {depth k : Nat} (live : k < 16) (below : k < depth) (run : StaysAtDepth depth t u) :
    u.stack[k] = t.stack[k] := by
  induction run with
  | done => rfl
  | more s t u deep one rest ih => exact ih.trans (step_keeps_entry live (by omega) one)

/-- Settles O15: the entry the call pushed is still there when the return at its depth pops it. -/
theorem subroutineRoundTrip : Obligations.SubroutineRoundTrip := by
  unfold Obligations.SubroutineRoundTrip
  intro s t u r nnn called callStep run depth returns retStep
  obtain ⟨noFault, rfl⟩ := (step_eq_next_iff called).mp callStep
  obtain ⟨-, rfl⟩ := (step_eq_next_iff returns).mp retStep
  have room := (execFault_call_iff nnn s).mp noFault
  have pushed : u.stack[s.sp.val] = s.pc := by
    rw [run.keeps_entry room (Nat.lt_succ_self _)]
    simp [State.after, s.stackAfter_call nnn room]
  have top : u.sp.val - 1 = s.sp.val := by omega
  constructor
  · change u.stack.toList.getD (u.sp.val - 1) 0 + 2 = s.pc + 2
    rw [top, u.getD_stack _ room, pushed]
  · exact Fin.ext top

end Sys2Proof.Machine

/-! ## The phases of a step and the timers (spec/10_state.md R26 to R28, spec/60_exceptions.md section 5) -/

namespace Sys2Proof.Machine

variable {s t u : State} {i : Instr}

/-! ### Fetch, decode, execute -/

theorem countDown_eq (b : Byte) : countDown b = if 0 < b.toNat then b - 1 else b := by
  unfold countDown
  by_cases zero : b = 0
  · subst zero; rfl
  · have pos : 0 < b.toNat := Nat.pos_of_ne_zero fun e => zero (BitVec.eq_of_toNat_eq e)
    rw [if_neg zero, if_pos pos]

/-- Settles O6: `step_of_exec` for an instruction that completes, `step_of_fetchInstr` for one that faults. -/
theorem stepRunsDecoded : Obligations.StepRunsDecoded := by
  unfold Obligations.StepRunsDecoded
  intro s i inside decoded _
  have fetched : s.fetchInstr = .ok i := State.fetchInstr_ok_iff.mpr ⟨inside, decoded⟩
  constructor
  · intro t h
    rw [step_of_exec fetched h, State.tick, countDown_eq, countDown_eq]
  · intro f h
    rw [step_of_fetchInstr fetched, h]
    rfl

theorem step_of_fetchInstr_error {f : Fault} (h : s.fetchInstr = .error f) : step s = .fault f := by
  rw [step, State.runStep, h]; rfl

/-- A word that decodes to no instruction is rejected with itself (spec/30_encoding.md R51). -/
theorem decode_of_no_instr {w : Word} (none : ∀ i, decode w ≠ .ok i) : decode w = .error (.unknownInstruction w) := by
  cases h : decode w with
  | ok i => exact absurd h (none i)
  | error e => rw [(decode_error_iff.mp h).1]

/-- Settles O7. -/
theorem fetchAndDecodeFaults : Obligations.FetchAndDecodeFaults := by
  unfold Obligations.FetchAndDecodeFaults
  intro s
  constructor
  · intro outside
    apply step_of_fetchInstr_error
    rw [State.fetchInstr, State.fetchWord_outside outside]
  · intro inside w word none
    have fetched : s.fetchWord = .ok w := by
      rw [State.fetchWord_inside inside, BitVec.eq_of_toNat_eq ((wordOfBytes_toNat _ _).trans word.symm)]
    apply step_of_fetchInstr_error
    simp only [State.fetchInstr, fetched, decode_of_no_instr none]

/-- Settles O17: the jump gives `pc` the value it has, and the tick leaves a timer that is 0. -/
theorem idleLoopChangesNothing : Obligations.IdleLoopChangesNothing := by
  unfold Obligations.IdleLoopChangesNothing
  rintro s ⟨⟨nnn, fetched, here⟩, dt, st⟩
  refine (step_eq_next_iff fetched).mpr ⟨rfl, ?_⟩
  have target : pcAfter s (.jpNnn nnn) = s.pc := by rw [pcAfter, here, BitVec.ofNat_toNat, BitVec.setWidth_eq]
  have dtStays : countDown s.dt = s.dt := by rw [dt]; rfl
  have stStays : countDown s.st = s.st := by rw [st]; rfl
  change s = { s with pc := pcAfter s (.jpNnn nnn), dt := countDown s.dt, st := countDown s.st }
  rw [target, dtStays, stStays]

/-! ### The timers -/

theorem step_dt (fetched : s.fetchInstr = .ok i) (h : step s = .next t) : t.dt.toNat = (s.dtAfter i).toNat - 1 := by
  rw [((step_eq_next_iff fetched).mp h).2]
  exact countDown_toNat _

theorem step_st (fetched : s.fetchInstr = .ok i) (h : step s = .next t) : t.st.toNat = (s.stAfter i).toNat - 1 := by
  rw [((step_eq_next_iff fetched).mp h).2]
  exact countDown_toNat _

/-- Settles O8: the tick counts down what the instruction left in each timer. -/
theorem stepDecrementsTimers : Obligations.StepDecrementsTimers := by
  unfold Obligations.StepDecrementsTimers
  intro s t i fetched h
  rw [step_dt fetched h, step_st fetched h]
  cases i <;> exact ⟨rfl, rfl⟩

theorem State.dtAfter_eq (s : State) (other : ¬ ∃ x, i = .ldDtVx x) : s.dtAfter i = s.dt := by
  cases i with
  | ldDtVx x => exact absurd ⟨x, rfl⟩ other
  | _ => rfl

theorem State.stAfter_eq (s : State) (other : ¬ ∃ x, i = .ldStVx x) : s.stAfter i = s.st := by
  cases i with
  | ldStVx x => exact absurd ⟨x, rfl⟩ other
  | _ => rfl

/-- A byte of the state that every step of a run takes one from is `n` less after `n` steps, down to 0. -/
theorem StepsWithout.countsDown {kind : Instr → Prop} {timer : State → Byte}
    (one : ∀ s t i, s.fetchInstr = .ok i → ¬ kind i → step s = .next t → (timer t).toNat = (timer s).toNat - 1)
    {n : Nat} (run : StepsWithout kind n t u) : (timer u).toNat = (timer t).toNat - n := by
  induction run with
  | done => rfl
  | more s t u n i fetched other step rest ih => rw [ih, one s t i fetched other step]; omega

/-- Settles O39: the step that sets the timer already takes one from it, and so does each further step. -/
theorem timersRunDown : Obligations.TimersRunDown := by
  unfold Obligations.TimersRunDown
  intro x n s t u h
  constructor
  · intro fetched run
    have first : t.dt.toNat = s.v[x].toNat - 1 := step_dt fetched h
    have further := run.countsDown (timer := State.dt) fun s t i fetched other h => by
      rw [step_dt fetched h, s.dtAfter_eq other]
    omega
  · intro fetched run
    have first : t.st.toNat = s.v[x].toNat - 1 := step_st fetched h
    have further := run.countsDown (timer := State.st) fun s t i fetched other h => by
      rw [step_st fetched h, s.stAfter_eq other]
    rw [State.soundTimerActive_iff]
    omega

end Sys2Proof.Machine

/-! ## The instructions one by one (spec/40_flow.md, spec/41_alu.md, spec/42_index_memory.md, spec/44_keys_timers.md)

An instruction without a fault does what its entries in the tables say, so each statement is `exec_eq` at that
instruction, up to the way a result is written: as an operation on bits, or as a number. -/

namespace Sys2Proof.Machine

/-! ### Results and flags as numbers -/

theorem byte_add (a b : Byte) : a + b = BitVec.ofNat 8 ((a.toNat + b.toNat) % 256) := by
  apply BitVec.eq_of_toNat_eq
  simp

theorem byte_sub (a b : Byte) : a - b = BitVec.ofNat 8 ((a.toNat + 256 - b.toNat) % 256) := by
  apply BitVec.eq_of_toNat_eq
  have := b.isLt
  simp only [BitVec.toNat_sub, BitVec.toNat_ofNat]
  omega

theorem byte_shr (a : Byte) : a >>> 1 = BitVec.ofNat 8 (a.toNat / 2) := by
  apply BitVec.eq_of_toNat_eq
  simp [Nat.shiftRight_eq_div_pow]
  omega

theorem byte_shl (a : Byte) : a <<< 1 = BitVec.ofNat 8 (a.toNat * 2 % 256) := by
  apply BitVec.eq_of_toNat_eq
  simp [Nat.shiftLeft_eq]

theorem word_add_byte (w : Word) (b : Byte) :
    w + b.zeroExtend 16 = BitVec.ofNat 16 ((w.toNat + b.toNat) % 65536) := by
  apply BitVec.eq_of_toNat_eq
  simp

theorem flagByte_eq_ite {flag : Bool} {p : Prop} [Decidable p] (h : flag = true ↔ p) :
    flagByte flag = if p then 1 else 0 := by
  by_cases holds : p
  · rw [h.mpr holds, if_pos holds]; rfl
  · rw [Bool.eq_false_iff.mpr fun set => holds (h.mp set), if_neg holds]; rfl

theorem flagByte_decide (p : Prop) [Decidable p] : flagByte (decide p) = if p then 1 else 0 :=
  flagByte_eq_ite decide_eq_true_iff

/-- The bit at place `k` as a byte. -/
theorem flagByte_bit (a : Byte) (k : Nat) : flagByte (a.getLsbD k) = BitVec.ofNat 8 (a.toNat / 2 ^ k % 2) := by
  have bit : a.getLsbD k = decide (a.toNat / 2 ^ k % 2 = 1) := by
    rw [BitVec.getLsbD, Nat.testBit_eq_decide_div_mod_eq]
  rw [bit, flagByte_decide]
  obtain zero | one := Nat.mod_two_eq_zero_or_one (a.toNat / 2 ^ k)
  · rw [zero]; rfl
  · rw [one]; rfl

/-! ### Loads, arithmetic and logic -/

/-- Settles O18. -/
theorem loadsAndImmediateAdd : Obligations.LoadsAndImmediateAdd := by
  unfold Obligations.LoadsAndImmediateAdd
  intro x y kk s
  refine ⟨exec_eq _ s, exec_eq _ s, ?_⟩
  rw [← byte_add]
  exact exec_eq _ s

theorem State.getElem_set_same (s : State) (x : Reg) (b : Byte) : (s.v.set x b)[x] = b := by
  simp

theorem State.set_getElem_same (s : State) (x : Reg) : s.v.set x s.v[x] = s.v :=
  Vector.set_getElem_self x.isLt

/-- Settles O19. -/
theorem logicLeavesFlag : Obligations.LogicLeavesFlag := by
  unfold Obligations.LogicLeavesFlag
  intro x y s
  have others : ∀ b, ∀ r ≠ x, (s.v.set x b)[r] = s.v[r] := fun b _ other => s.getElem_set_ne b (beq_false_of_ne other)
  refine ⟨
    ⟨{ s with v := s.v.set x (s.v[x] ||| s.v[y]), pc := s.pc + 2 }, exec_eq _ s, rfl, fun b _ => ?_, others _, ?_⟩,
    ⟨{ s with v := s.v.set x (s.v[x] &&& s.v[y]), pc := s.pc + 2 }, exec_eq _ s, rfl, fun b _ => ?_, others _, ?_⟩,
    ⟨{ s with v := s.v.set x (s.v[x] ^^^ s.v[y]), pc := s.pc + 2 }, exec_eq _ s, rfl, fun b _ => ?_, others _, ?_⟩⟩
  · rw [s.getElem_set_same, BitVec.getLsbD_or]
  · rintro rfl
    rw [BitVec.or_self, s.set_getElem_same]
  · rw [s.getElem_set_same, BitVec.getLsbD_and]
  · rintro rfl
    rw [BitVec.and_self, s.set_getElem_same]
  · rw [s.getElem_set_same, BitVec.getLsbD_xor]
  · rintro rfl
    rw [s.getElem_set_same, BitVec.xor_self]
    rfl

/-- An instruction that writes a result and then its flag, with both as numbers. -/
theorem State.regsWithFlag_eq (s : State) (x : Reg) {b c d : Byte} {flag : Bool} (result : b = c)
    (bit : flagByte flag = d) : s.regsWithFlag x b flag = (s.v.set x c).set 15 d := by
  rw [State.regsWithFlag, result, bit]

/-- Settles O20. -/
theorem addSetsCarry : Obligations.AddSetsCarry := by
  unfold Obligations.AddSetsCarry
  intro x y s
  rw [← s.regsWithFlag_eq x (byte_add s.v[x] s.v[y]) (flagByte_decide _)]
  exact exec_eq _ s

/-- Settles O21. -/
theorem subtractionsSetStrictFlag : Obligations.SubtractionsSetStrictFlag := by
  unfold Obligations.SubtractionsSetStrictFlag
  intro x y s
  rw [← s.regsWithFlag_eq x (byte_sub s.v[x] s.v[y]) (flagByte_decide _),
    ← s.regsWithFlag_eq x (byte_sub s.v[y] s.v[x]) (flagByte_decide _)]
  exact ⟨exec_eq _ s, exec_eq _ s⟩

theorem flagByte_lowestBit (a : Byte) : flagByte (lowestBit a) = BitVec.ofNat 8 (a.toNat % 2) := by
  rw [lowestBit, flagByte_bit, pow_zero, Nat.div_one]

theorem flagByte_highestBit (a : Byte) : flagByte (highestBit a) = BitVec.ofNat 8 (a.toNat / 128) := by
  have := a.isLt
  rw [highestBit, flagByte_bit, Nat.mod_eq_of_lt (by omega)]
  rfl

/-- Settles O22. -/
theorem shiftsCatchBitOut : Obligations.ShiftsCatchBitOut := by
  unfold Obligations.ShiftsCatchBitOut
  intro x y s
  rw [← s.regsWithFlag_eq x (byte_shr s.v[x]) (flagByte_lowestBit s.v[x]),
    ← s.regsWithFlag_eq x (byte_shl s.v[x]) (flagByte_highestBit s.v[x])]
  exact ⟨exec_eq _ s, exec_eq _ s⟩

/-- Settles O23. -/
theorem randomUnderMask : Obligations.RandomUnderMask := by
  unfold Obligations.RandomUnderMask
  intro x kk s
  refine ⟨_, exec_eq _ s, rfl, fun b outside => ?_, rfl⟩
  change (s.v.set x (s.randomByte &&& kk))[x].getLsbD b = false
  rw [s.getElem_set_same, BitVec.getLsbD_and, outside, Bool.and_false]

/-! ### The index register, the timers, the screen -/

/-- Settles O24. -/
theorem indexLoads : Obligations.IndexLoads := by
  unfold Obligations.IndexLoads
  exact fun _ _ s => ⟨exec_eq _ s, exec_eq _ s⟩

/-- Settles O25. -/
theorem addIndexSetsFlag : Obligations.AddIndexSetsFlag := by
  unfold Obligations.AddIndexSetsFlag
  intro x s
  rw [← word_add_byte, ← flagByte_decide]
  exact exec_eq _ s

/-- Settles O38. -/
theorem timerMoves : Obligations.TimerMoves := by
  unfold Obligations.TimerMoves
  exact fun _ s => ⟨exec_eq _ s, exec_eq _ s, exec_eq _ s⟩

/-- Settles O32. -/
theorem clearScreenUnsetsAll : Obligations.ClearScreenUnsetsAll := by
  unfold Obligations.ClearScreenUnsetsAll
  intro s
  refine ⟨_, exec_eq _ s, fun y x => ?_, rfl⟩
  simp [State.after, State.fbAfter, blankFrame]

/-! ### Jumps, calls and skips -/

/-- Settles O11. -/
theorem jumpsReachTarget : Obligations.JumpsReachTarget := by
  unfold Obligations.JumpsReachTarget
  exact fun _ s => ⟨exec_eq _ s, exec_eq _ s⟩

/-- Settles O12. -/
theorem callPushesOwnAddress : Obligations.CallPushesOwnAddress := by
  unfold Obligations.CallPushesOwnAddress
  intro nnn s room
  refine ⟨_, exec_eq_next_iff.mpr ⟨(execFault_call_iff nnn s).mpr room, rfl⟩, ?_, s.stackAfter_call nnn room, ?_, rfl⟩
  · simp [State.after, State.spAfter, room]
  · have := nnn.isLt
    simp only [State.after, pcAfter, BitVec.toNat_ofNat]
    omega

theorem execFault_ret_iff (s : State) : execFault s .ret = none ↔ 0 < s.sp.val := by
  simp only [execFault, ite_eq_right_iff, reduceCtorEq, imp_false]
  omega

/-- Settles O13. -/
theorem retResumesAfterCall : Obligations.RetResumesAfterCall := by
  unfold Obligations.RetResumesAfterCall
  intro s live
  refine ⟨_, exec_eq_next_iff.mpr ⟨(execFault_ret_iff s).mpr live, rfl⟩, rfl, ?_, rfl⟩
  simp only [State.after, pcAfter, s.getD_stack (s.sp.val - 1) (by omega)]
  exact BitVec.toNat_add _ _

theorem exists_ite_some_iff {α : Type} {p : Prop} [Decidable p] {a : α} :
    (∃ b, (if p then some a else none) = some b) ↔ p := by
  by_cases holds : p <;> simp [holds]

/-- Settles O14: the two entries of the fault table. -/
theorem stackBoundsFault : Obligations.StackBoundsFault := by
  unfold Obligations.StackBoundsFault
  intro nnn s
  simp only [exec_eq_fault_iff, execFault]
  exact ⟨exists_ite_some_iff.symm, fun empty => if_pos empty, exists_ite_some_iff.symm, fun full => if_pos full⟩

/-- Settles O16. -/
theorem skipsOnRegisterTest : Obligations.SkipsOnRegisterTest := by
  unfold Obligations.SkipsOnRegisterTest
  intro x y kk s
  simp only [BitVec.toNat_inj, ← ite_not (s.v[x] = kk) (s.pc + 4), ← ite_not (s.v[x] = s.v[y]) (s.pc + 4)]
  exact ⟨exec_eq _ s, exec_eq _ s, exec_eq _ s, exec_eq _ s⟩

/-! ### The keys -/

/-- A key named by its index is no fault of the key skips (spec/44_keys_timers.md R100, R101). -/
theorem execFault_key_none {s : State} {x : Reg} {k : Key} (named : s.v[x].toNat = k.val) :
    execFault s (.skpVx x) = none ∧ execFault s (.sknpVx x) = none := by
  have := k.isLt
  simp only [execFault]
  exact ⟨if_neg (by omega), if_neg (by omega)⟩

/-- Settles O36. -/
theorem skipsOnKey : Obligations.SkipsOnKey := by
  unfold Obligations.SkipsOnKey
  intro x k s named
  obtain ⟨skp, sknp⟩ := execFault_key_none named
  constructor
  · rw [← pcAfter_skpVx named]
    exact exec_eq_next_iff.mpr ⟨skp, rfl⟩
  · have swapped : (if s.key[k] = true then s.pc + 2 else s.pc + 4) = pcAfter s (.sknpVx x) := by
      rw [pcAfter_sknpVx named]
      cases s.key[k] <;> rfl
    rw [swapped]
    exact exec_eq_next_iff.mpr ⟨sknp, rfl⟩

/-- Settles O37. -/
theorem keyWaitStallsOrStores : Obligations.KeyWaitStallsOrStores := by
  unfold Obligations.KeyWaitStallsOrStores
  intro x s
  constructor
  · intro up
    refine exec_eq_next_iff.mpr ⟨rfl, ?_⟩
    simp only [State.after, pcAfter_ldVxK_of_up up, State.regsAfter, State.leastKeyDown_none up]
    rfl
  · intro k down least
    refine exec_eq_next_iff.mpr ⟨rfl, ?_⟩
    simp only [State.after, pcAfter_ldVxK_of_down down, State.regsAfter, State.leastKeyDown_some down least]
    rfl

end Sys2Proof.Machine

/-! ## Memory (spec/20_memory.md sections 3 and 7, spec/42_index_memory.md section 3) -/

namespace Sys2Proof.Machine

variable {s t : State} {x k : Reg}

/-- Settles O49: the three laws of `Memory.write` and of the canonical form. -/
theorem memoryReadsLastWrite : Obligations.MemoryReadsLastWrite := by
  unfold Obligations.MemoryReadsLastWrite
  exact ⟨Memory.read_write, fun _ _ v canonical inside => Memory.wf_write canonical inside v,
    fun _ _ => Memory.wfFrom_ext⟩

/-! ### Stores -/

theorem execFault_ldBVx_none (h : s.i.toNat + 2 ≤ 0xFFF) : execFault s (.ldBVx x) = none := if_neg (by omega)

theorem execFault_ldMemIVx_none (h : s.i.toNat + x.val ≤ 0xFFF) : execFault s (.ldMemIVx x) = none :=
  if_neg (by omega)

theorem execFault_ldVxMemI_none (h : s.i.toNat + x.val ≤ 0xFFF) : execFault s (.ldVxMemI x) = none :=
  if_neg (by omega)

/-- A digit of a byte as a byte. -/
theorem digit_toNat {d : Nat} {b : Byte} (h : d ≤ b.toNat) : (BitVec.ofNat 8 d).toNat = d := by
  have := b.isLt
  rw [BitVec.toNat_ofNat, Nat.mod_eq_of_lt (by omega)]

/-- Settles O26. -/
theorem bcdStoresDigits : Obligations.BcdStoresDigits := by
  unfold Obligations.BcdStoresDigits
  intro x s inside
  have three := length_decimalDigits s.v[x]
  refine ⟨_, exec_eq_next_iff.mpr ⟨execFault_ldBVx_none inside, rfl⟩, ?_, ?_, ?_, fun a outside => ?_, rfl⟩ <;>
    simp only [State.after, State.memAfter]
  · rw [← Nat.add_zero s.i.toNat, Memory.read_writeBytes_inside _ _ _ 0 (by omega)]
    exact digit_toNat (b := s.v[x]) (Nat.div_le_self _ _)
  · rw [Memory.read_writeBytes_inside _ _ _ 1 (by omega)]
    exact digit_toNat (b := s.v[x]) ((Nat.mod_le _ _).trans (Nat.div_le_self _ _))
  · rw [Memory.read_writeBytes_inside _ _ _ 2 (by omega)]
    exact digit_toNat (b := s.v[x]) (Nat.mod_le _ _)
  · exact Memory.read_writeBytes_outside s.mem (by omega)

/-- Settles O27. -/
theorem dumpStoresRegisters : Obligations.DumpStoresRegisters := by
  unfold Obligations.DumpStoresRegisters
  intro x s inside
  refine ⟨_, exec_eq_next_iff.mpr ⟨execFault_ldMemIVx_none inside, rfl⟩, fun k small => ?_, fun a outside => ?_, rfl⟩
  · change (s.mem.writeBytes s.i.toNat (s.regsUpTo x)).read (s.i.toNat + k.val) = s.v[k]
    rw [Memory.read_writeBytes, if_pos (Nat.le_add_right _ _), Nat.add_sub_cancel_left, s.getD_regsUpTo x k small]
  · have length := s.length_regsUpTo x
    exact Memory.read_writeBytes_outside s.mem (by omega)

/-! ### Loads, and a load after a store -/

theorem State.getD_spriteBytes (s : State) {n k : Nat} (h : k < n) (d : Byte) :
    (s.spriteBytes n).getD k d = s.mem.read (s.i.toNat + k) := by
  simp [State.spriteBytes, List.getD_eq_getElem?_getD, h]

/-- Settles O28. -/
theorem loadFillsRegisters : Obligations.LoadFillsRegisters := by
  unfold Obligations.LoadFillsRegisters
  intro x s inside
  refine ⟨_, exec_eq_next_iff.mpr ⟨execFault_ldVxMemI_none inside, rfl⟩, fun k small => ?_, fun k above => ?_, rfl⟩
  · exact (s.getElem_setRegs _ k).trans (s.getD_spriteBytes (by omega) _)
  · exact s.getElem_regsAfter_ne (i := .ldVxMemI x) (by simpa [isDestination] using above) (by simp [writesFlag])

theorem exec_next_inj {i : Instr} {u : State} (h : exec i s = .next t) (h' : exec i s = .next u) : t = u :=
  Host.Outcome.next.inj (h.symm.trans h')

/-- Settles O29: the load reads at each address what the dump stored there. -/
theorem dumpThenLoadRestores : Obligations.DumpThenLoadRestores := by
  unfold Obligations.DumpThenLoadRestores
  intro x s t u dump index untouched
  have inside : s.i.toNat + x.val ≤ 0xFFF := by
    simpa [execFault] using (exec_eq_next_iff.mp dump).1
  obtain ⟨t', dumped, stored, -⟩ := dumpStoresRegisters x s inside
  obtain rfl := exec_next_inj dump dumped
  obtain ⟨r, loaded, filled, -⟩ := loadFillsRegisters x u (by rwa [index])
  refine ⟨r, loaded, fun k small => ?_⟩
  rw [filled k small, index, untouched _ (by omega) (by omega), stored k small]

/-- Settles O31: the fetch reads the first two bytes of the dump. -/
theorem storeIsFetchedAtOnce : Obligations.StoreIsFetchedAtOnce := by
  unfold Obligations.StoreIsFetchedAtOnce
  intro x s room index two inside
  obtain ⟨t, dumped, stored, -, frame⟩ := dumpStoresRegisters x s inside
  have pc : t.pc = s.i := by rw [frame, index]
  have fetchable : t.pc.toNat ≤ 0xFFE := by
    rw [pc]
    omega
  refine ⟨t, dumped, ?_⟩
  rw [State.fetchWord_inside fetchable, pc]
  exact congrArg₂ (fun high low => Except.ok (wordOfBytes high low)) (stored 0 (Nat.zero_le _)) (stored 1 two)

end Sys2Proof.Machine

/-! ## Drawing (spec/43_display.md R96) -/

namespace Sys2Proof.Machine

variable {s t : State} {x y : Reg} {n : Height} {py : Fin 32} {px : Fin 64}

/-! ### The covered pixels -/

/-- A draw covers the pixel, in the terms of the claims. -/
abbrev State.Covers (s : State) (x y : Reg) (n : Height) (py : Fin 32) (px : Fin 64) : Prop :=
  SpriteCovers s.mem s.i.toNat n.val s.v[x].toNat s.v[y].toNat py px

/-- Bit `7 - c` falls on column `c`: the loop counts bits, the claims count columns. -/
theorem columnCovered_iff {x0 : Nat} {b : Byte} :
    ColumnCovered x0 b 8 px ↔ ∃ c < 8, b.getLsbD (7 - c) = true ∧ (x0 + c) % 64 = px.val := by
  constructor
  · rintro ⟨k, small, bit, column⟩
    exact ⟨7 - k, by omega, by rwa [show 7 - (7 - k) = k by omega], column⟩
  · rintro ⟨c, small, bit, column⟩
    exact ⟨7 - c, by omega, bit, by rwa [show 7 - (7 - c) = c by omega]⟩

theorem State.pixelCovered_iff :
    PixelCovered s.v[x].toNat s.v[y].toNat (s.spriteBytes n.val) py px ↔ s.Covers x y n py px := by
  unfold PixelCovered State.Covers SpriteCovers
  simp only [columnCovered_iff, State.spriteBytes, List.length_map, List.length_range, List.getElem_map,
    List.getElem_range]
  constructor
  · rintro ⟨r, small, row, c, left, bit, column⟩
    exact ⟨r, c, small, left, bit, row, column⟩
  · rintro ⟨r, c, small, left, bit, row, column⟩
    exact ⟨r, small, row, c, left, bit, column⟩

/-! ### What a draw does to them -/

theorem State.drawn_spec (s : State) (x y : Reg) (n : Height) :
    (∀ py px, (s.Covers x y n py px → (s.drawn x y n).1[py][px] = !s.fb[py][px]) ∧
      (¬ s.Covers x y n py px → (s.drawn x y n).1[py][px] = s.fb[py][px])) ∧
    ((s.drawn x y n).2 = true ↔ ∃ py px, s.Covers x y n py px ∧ s.fb[py][px] = true) := by
  have short : (s.spriteBytes n.val).length ≤ 32 := by rw [s.length_spriteBytes]; omega
  have spec := drawRows_spec s.v[x].toNat (s.spriteBytes n.val) s.v[y].toNat (s.fb, false) short
  simp only [State.pixelCovered_iff, Bool.false_eq_true, false_or] at spec
  exact spec

theorem State.drawn_covered (covered : s.Covers x y n py px) : (s.drawn x y n).1[py][px] = !s.fb[py][px] :=
  ((s.drawn_spec x y n).1 py px).1 covered

theorem State.drawn_uncovered (uncovered : ¬ s.Covers x y n py px) : (s.drawn x y n).1[py][px] = s.fb[py][px] :=
  ((s.drawn_spec x y n).1 py px).2 uncovered

theorem State.collision_iff : (s.drawn x y n).2 = true ↔ ∃ py px, s.Covers x y n py px ∧ s.fb[py][px] = true :=
  (s.drawn_spec x y n).2

theorem execFault_drwVxVyN_none (inside : n.val = 0 ∨ s.i.toNat + n.val ≤ 0x1000) :
    execFault s (.drwVxVyN x y n) = none := if_neg (by omega)

/-- Settles O33. -/
theorem drawXorsSprite : Obligations.DrawXorsSprite := by
  unfold Obligations.DrawXorsSprite
  intro x y n s inside
  have regs : ∀ {flag : Bool}, (s.drawn x y n).2 = flag →
      (s.after (.drwVxVyN x y n)).v = s.v.set 15 (flagByte flag) := fun h => by rw [← h]; rfl
  refine ⟨_, exec_eq_next_iff.mpr ⟨execFault_drwVxVyN_none inside, rfl⟩,
    fun py px => ⟨State.drawn_covered, State.drawn_uncovered⟩, fun hit => ?_, fun clear => ?_, rfl⟩
  · exact regs (State.collision_iff.mpr hit)
  · refine regs (Bool.eq_false_iff.mpr fun collision => ?_)
    obtain ⟨py, px, covered, set⟩ := State.collision_iff.mp collision
    rw [clear py px covered] at set
    cases set

/-! ### A second draw -/

/-- A draw moves no sprite: unless a coordinate is read from `VF`, the same draw covers the same pixels again. -/
theorem State.covers_after_draw (hx : x ≠ 15) (hy : y ≠ 15) :
    (s.after (.drwVxVyN x y n)).Covers x y n py px ↔ s.Covers x y n py px := by
  have keeps : ∀ {r : Reg}, r ≠ 15 → (s.after (.drwVxVyN x y n)).v[r] = s.v[r] := fun other =>
    State.getElem_setFlag_ne s.v _ other
  unfold State.Covers
  rw [keeps hx, keeps hy]
  rfl

/-- The pixels a draw turned on are the covered ones that are set after it. -/
theorem State.turned_on_iff : (s.fb[py][px] = false ∧ (s.drawn x y n).1[py][px] = true) ↔
    s.Covers x y n py px ∧ (s.drawn x y n).1[py][px] = true := by
  by_cases covered : s.Covers x y n py px
  · rw [State.drawn_covered covered]
    simp [covered]
  · simp only [State.drawn_uncovered covered, covered, false_and, iff_false, not_and]
    intro unset set
    rw [unset] at set
    cases set

/-- Settles O34: a covered pixel is toggled twice, and a collision of the second draw is a pixel the first turned on. -/
theorem drawTwiceRestores : Obligations.DrawTwiceRestores := by
  unfold Obligations.DrawTwiceRestores
  intro x y n s t hx hy first
  obtain ⟨noFault, rfl⟩ := exec_eq_next_iff.mp first
  refine ⟨_, exec_eq_next_iff.mpr ⟨noFault, rfl⟩, ?_, ?_⟩
  · refine Frame.ext_pixel fun py px => ?_
    change ((s.after (.drwVxVyN x y n)).drawn x y n).1[py][px] = s.fb[py][px]
    by_cases covered : s.Covers x y n py px
    · rw [State.drawn_covered ((State.covers_after_draw hx hy).mpr covered)]
      change (!(s.drawn x y n).1[py][px]) = s.fb[py][px]
      rw [State.drawn_covered covered, Bool.not_not]
    · rw [State.drawn_uncovered fun again => covered ((State.covers_after_draw hx hy).mp again)]
      exact State.drawn_uncovered covered
  · refine (State.getElem_flag_set _ _).trans (flagByte_eq_ite ?_)
    rw [State.collision_iff]
    simp only [State.covers_after_draw hx hy]
    exact exists_congr fun py => exists_congr fun px => State.turned_on_iff.symm

end Sys2Proof.Machine

/-! ## Reset and the host (spec/70_reset_and_hazards.md section 1, spec/60_exceptions.md sections 2 and 6) -/

namespace Sys2Proof.Machine

variable {h : Session} {a : HostAction} {actions : List HostAction}

/-! ### Reset -/

theorem length_font : Config.font.length = 80 := rfl

/-- Settles O48: the listed values by their definition, the memory as the font and zeros after it. -/
theorem resetValues : Obligations.ResetValues := by
  unfold Obligations.ResetValues
  refine ⟨fun r => ?_, rfl, rfl, rfl, fun k => ?_, rfl, rfl, State.reset.getElem_key_restart, fun y x => ?_, rfl,
    length_font, fun a font => ?_, fun a above => ?_⟩
  · simp [State.reset]
  · simp [State.reset]
  · simp [State.reset, blankFrame]
  · have inside : a < Config.font.length := font
    change some (Config.font.getD a 0) = Config.font[a]?
    rw [List.getD_eq_getElem _ _ inside, List.getElem?_eq_getElem inside]
  · exact List.getD_eq_default _ _ above

/-- Settles O52: `restart` keeps the count of random bytes alone, and a load leaves it. -/
theorem restartForgetsState : Obligations.RestartForgetsState := by
  unfold Obligations.RestartForgetsState
  refine fun s => ⟨rfl, rfl, fun image fits t loaded => ?_⟩
  rw [State.load_fits s fits] at loaded
  cases loaded
  rfl

/-! ### When an action is carried out -/

theorem Phase.allows_load_iff {p : Phase} {image : List Byte} : p.allows (.load image) = true ↔ p = .initialized := by
  cases p <;> simp [Phase.allows]

/-- A load that is carried out, whether or not it succeeds, is the only one before the next `restart` (D29). -/
theorem Session.perform_load_phase_ne (h : Session) (image : List Byte) :
    (h.perform (.load image)).2.phase ≠ .initialized := by
  unfold Session.perform
  by_cases fits : image.length ≤ 3584
  · simp [State.load_fits h.state fits]
  · simp [State.load_tooLarge h.state (Nat.not_le.mp fits)]

/-- The action leaves a session right after `restart` in that phase. -/
def HostAction.KeepsStart (a : HostAction) : Prop := a ≠ .step ∧ ∀ image, a ≠ .load image

/-- No action but `restart` leads to the phase right after `restart`, and only a load or a step leads out of it. -/
theorem Session.act_phase_iff (notRestart : a ≠ .restart) :
    (h.act a).2.phase = .initialized ↔ h.phase = .initialized ∧ a.KeepsStart := by
  unfold HostAction.KeepsStart
  obtain ⟨allowed, done⟩ | ⟨allowed, turnedAway⟩ := h.act_cases a
  · rw [done]
    cases a with
    | restart => exact absurd rfl notRestart
    | load image => simp [h.perform_load_phase_ne image]
    | setKey k down | clearRedraw => simp [Session.perform]
    | step => simp [Session.perform]
  · rw [turnedAway]
    refine (and_iff_left_of_imp fun start => ?_).symm
    rw [start] at allowed
    cases a <;> simp [Phase.allows] at allowed

theorem Session.run_phase_iff : ∀ {h : Session}, .restart ∉ actions →
    ((h.run actions).2.phase = .initialized ↔ h.phase = .initialized ∧ ∀ a ∈ actions, a.KeepsStart) := by
  induction actions with
  | nil => intro h _; simp
  | cons a rest ih =>
    intro h noRestart
    rw [List.mem_cons, not_or] at noRestart
    obtain ⟨first, later⟩ := noRestart
    rw [Session.run_cons, ih later, Session.act_phase_iff (Ne.symm first), List.forall_mem_cons, and_assoc]

/-- Settles O53. -/
theorem hostActionsWhenAllowed : Obligations.HostActionsWhenAllowed := by
  unfold Obligations.HostActionsWhenAllowed
  refine ⟨fun h actions image noRestart => ?_, fun h a denied => ?_, fun h image start fits => ?_, fun h live => ?_,
    Session.act_restart⟩
  · rw [Phase.allows_load_iff, Session.run_phase_iff noRestart, Session.act_restart]
    exact and_iff_right rfl
  · rw [Session.act, denied]
    rfl
  · refine ⟨_, State.load_fits h.state fits, ?_⟩
    rw [Session.act_load_of_initialized start, Session.perform, State.load_fits h.state fits]
  · exact ⟨Session.act_step_of_ne live, Session.act_clearRedraw_of_ne live, Session.act_setKey_of_ne live⟩

/-! ### After a fault -/

/-- A property that every action but `restart` keeps holds after every run without one. -/
theorem Session.run_keeps_without {P : Session → Prop} (one : ∀ h a, a ≠ .restart → P h → P (h.act a).2) :
    ∀ {h : Session}, .restart ∉ actions → P h → P (h.run actions).2 := by
  induction actions with
  | nil => exact fun _ start => start
  | cons a rest ih =>
    intro h noRestart start
    rw [List.mem_cons, not_or] at noRestart
    exact ih noRestart.2 (one h a (Ne.symm noRestart.1) start)

/-- The session is in the faulted state `s`, where the host has moved the keys and `needsRedraw` alone. -/
def Session.StuckAt (s : State) (h : Session) : Prop :=
  ∃ (key : Vector Bool 16) (redraw : Bool),
    h = { state := { s with key := key, needsRedraw := redraw }, phase := .stepping }

theorem Session.act_step_of_stuckAt {s : State} {f : Fault} (fault : step s = .fault f) (stuck : h.StuckAt s) :
    h.act .step = (.fault f, h) := by
  obtain ⟨key, redraw, rfl⟩ := stuck
  exact Session.act_step_fault nofun (step_fault_with fault key redraw s.draws)

theorem Session.stuckAt_act {s : State} {f : Fault} (fault : step s = .fault f) (notRestart : a ≠ .restart)
    (stuck : h.StuckAt s) : (h.act a).2.StuckAt s := by
  cases a with
  | restart => exact absurd rfl notRestart
  | step => rwa [Session.act_step_of_stuckAt fault stuck]
  | load image =>
    obtain ⟨key, redraw, rfl⟩ := stuck
    exact ⟨key, redraw, rfl⟩
  | setKey k down =>
    obtain ⟨key, redraw, rfl⟩ := stuck
    exact ⟨key.set k down, redraw, rfl⟩
  | clearRedraw =>
    obtain ⟨key, redraw, rfl⟩ := stuck
    exact ⟨key, false, rfl⟩

/-- A requested step is answered with a fault only by a step that was carried out and faulted. -/
theorem Session.fault_of_act_step {f : Fault} (reply : (h.act .step).1 = .fault f) :
    h.phase ≠ .startFailed ∧ step h.state = .fault f := by
  by_cases failed : h.phase = .startFailed
  · rw [Session.act_startFailed failed (by decide)] at reply
    cases reply
  · rw [Session.act_step_of_ne failed, State.requestStep] at reply
    refine ⟨failed, ?_⟩
    cases result : step h.state with
    | next t => rw [result] at reply; cases reply
    | fault g => rw [result] at reply; cases reply; rfl
    | refused r => rw [result] at reply; cases reply

/-- Settles O54: a session stuck at a fault stays stuck at it until `restart`. -/
theorem faultLeftByRestartOnly : Obligations.FaultLeftByRestartOnly := by
  unfold Obligations.FaultLeftByRestartOnly
  intro h f actions reply noRestart
  obtain ⟨live, fault⟩ := Session.fault_of_act_step reply
  have stepped : (h.act .step).2 = { h with phase := .stepping } := by rw [Session.act_step_fault live fault]
  rw [stepped]
  have stuck : (({ h with phase := .stepping } : Session).run actions).2.StuckAt h.state :=
    Session.run_keeps_without (fun _ _ notRestart => Session.stuckAt_act fault notRestart) noRestart
      ⟨h.state.key, h.state.needsRedraw, rfl⟩
  refine ⟨rfl, stuck, ?_, fun image => ?_, ?_⟩
  · rw [Session.act_step_of_stuckAt fault stuck]
  · obtain ⟨key, redraw, moved⟩ := stuck
    rw [Session.act_load_of_ne (by simp [moved])]
  · obtain ⟨key, redraw, moved⟩ := stuck
    rw [Session.act_restart, moved]
    rfl

/-! ### After a load that failed -/

/-- In a session whose start failed every action but `restart` is turned away, however many there are. -/
theorem Session.run_startFailed (failed : h.phase = .startFailed) (noRestart : .restart ∉ actions) :
    h.run actions = (actions.map fun _ => .notAllowed, h) := by
  induction actions with
  | nil => rfl
  | cons a rest ih =>
    rw [List.mem_cons, not_or] at noRestart
    rw [Session.run_cons, Session.act_startFailed failed (Ne.symm noRestart.1), ih noRestart.2, List.map_cons]

/-- Settles O55. -/
theorem failedLoadEndsSession : Obligations.FailedLoadEndsSession := by
  unfold Obligations.FailedLoadEndsSession
  intro h image actions first large noRestart
  have failed := Session.act_load_tooLarge first large
  refine ⟨failed, ?_⟩
  rw [failed]
  exact Session.run_startFailed rfl noRestart

end Sys2Proof.Machine
